-- ==== Sys2Proof/Word.lean ====
section
/-! DEFINITION. The word types of the block (spec/00_scope.md R10: every value is unsigned). -/

namespace Sys2Proof

/-- A byte: an unsigned 8-bit value (R10). -/
abbrev Byte := BitVec 8

/-- A command word `cmd[9:0]` (R42). -/
abbrev Cmd := BitVec 10

/-- The 16-bit checksum register (R6, R10). -/
abbrev Crc := BitVec 16

/-- The `sample_data[87:0]` bus (R20). -/
abbrev SampleBus := BitVec 88

end Sys2Proof
end

