-- ==== Sys2Proof/Config.lean ====
section
/-! DEFINITION. The constants of the block: the frame (R5), the checksum (R6) and the build parameter
`ACC_CAP` (R7). The spec leaves no value of an instruction free, so
no opaque constant stands here. -/

namespace Sys2Proof.Config

/-- `FRAME_LEN`: bytes in a frame (R5). -/
@[simp, reducible] def frameLen : Nat := 16

/-- `MARKER_LEN`: bytes 0..2 of a frame (R5). -/
@[simp, reducible] def markerLen : Nat := 3

/-- `PAYLOAD_OFF`: offset of the first payload byte (R5). -/
@[simp, reducible] def payloadOff : Nat := 3

/-- `PAYLOAD_LEN`: payload bytes, channels 0..10 (R5). -/
@[simp, reducible] def payloadLen : Nat := 11

/-- `CRC_OFF`: offset of the checksum's high byte (R5). -/
@[simp, reducible] def crcOff : Nat := 14

/-- `CRC_LEN`: checksum bytes 14..15 (R5). -/
@[simp, reducible] def crcLen : Nat := 2

/-- `CRC_COVER`: the checksum covers bytes 0..13 (R5). -/
@[simp, reducible] def crcCover : Nat := 14

/-- The byte `'$'`, the first of the marker (R5). -/
def dollar : Byte := 0x24

/-- `MARKER` = `"$DC"` (R5). -/
def marker : List Byte := [0x24, 0x44, 0x43]

/-- `CRC_INIT` (R6). -/
def crcInit : Crc := 0xFFFF

/-- `CRC_POLY` (R6). -/
def crcPoly : Crc := 0x1021

/-- The least `ACC_CAP` a build may have (R7). -/
@[simp, reducible] def accCapMin : Nat := 16

/-- The default of the build parameter `ACC_CAP` (R7). -/
def accCapDefault : Nat := 32

end Sys2Proof.Config
end

