-- ==== Sys2Proof/Machine/State.lean ====
section
/-! DEFINITION. The state of the block (R15), what drives its input ports (R25), the reasons a step can stop, and the
reset state (R26). -/

namespace Sys2Proof.Machine

/-- What the environment drives on the input ports at one rising edge of `clk` (R25, R42, R104). -/
structure Edge where
  /-- The `rst` pin, synchronous and active high (R104). -/
  rst : Bool
  /-- The `cmd` port (R42). -/
  cmd : Cmd
  deriving DecidableEq, Repr

/-- The state. The first four fields are the architectural state, exactly the tuple of R15. The other four are
carried by the model: the build parameter, the input still to come, and the records R87 and R107 ask a model for. -/
structure State where
  /-- `acc`: the bytes received and not yet consumed, oldest first (R16). -/
  acc : List Byte
  /-- `sample_valid` (R18). -/
  sampleValid : Bool
  /-- `frame_err` (R19). -/
  frameErr : Bool
  /-- `sample_data[87:0]` (R20). -/
  sampleData : SampleBus
  /-- `ACC_CAP`, the parameter of the step (R7, R15): fixed when the block is built, changed by no step.
  DESIGN CHOICE (log 2): it is carried here so that one step function covers every build. -/
  accCap : Nat
  /-- What the environment drives at the coming edges, the next edge first (R13, R98).
  DESIGN CHOICE (log 1): the model's own, the input of a run. -/
  pending : List Edge
  /-- A reserved word has been performed in this run: the record R87 asks a model to keep for the whole run, by which a
  run is refused (`runStep`). DESIGN CHOICE (log 3): that the record stands in the state. No command reads it. -/
  reservedSeen : Bool
  /-- There has been an edge with `rst = 1` since power-up, so the block's rules hold (R107, R108). Where it is false the
  values of the fields above are unspecified and no word on `cmd` has an effect the spec gives: the model's own field,
  by which a run that does not start with `rst` is refused (log 5). -/
  resetDone : Bool
  deriving DecidableEq, Repr

/-- Why the machine stops. The block itself has no faults (R90). -/
inductive Fault where
  /-- Raised by a PUSH whose pass calls `ValidateAndDecode` on a candidate that is not 16 bytes or does not start with
  the marker (R91). Safe: it never happens (R65). -/
  | validatePrecondition
  deriving DecidableEq, Repr

/-- Why the model gives no next state. -/
inductive Refusal where
  /-- Raised by `exec` for an instruction that has no meaning yet. Safe. No arm raises it in this model. -/
  | notModelled (mnemonic : String)
  /-- Raised by `step` when the command sequence has ended: with no rising edge nothing happens (R98, R103). Safe. -/
  | noEdge
  /-- Raised by `runStep` (Machine/Stream.lean) at the edge of a run that performs a reserved word, and at every edge
  after it: a model refuses a run that contains one (R46, R87). Safe: it makes claims about such runs unprovable. -/
  | reservedInRun
  /-- Raised by `step` for a word on `cmd` at an edge with `rst = 0` before the first edge with `rst = 1`: its effect is
  unspecified, and a run that does not start with `rst` is refused (R107). Safe. -/
  | beforeReset
  deriving DecidableEq, Repr

/-- Replace the accumulator. -/
def State.withAcc (acc : List Byte) (s : State) : State := { s with acc := acc }

/-- Replace the two pulses. -/
def State.withPulses (sampleValid frameErr : Bool) (s : State) : State :=
  { s with sampleValid := sampleValid, frameErr := frameErr }

/-- Replace the sample register. -/
def State.withSampleData (d : SampleBus) (s : State) : State := { s with sampleData := d }

/-- Replace the input still to come. -/
def State.withPending (es : List Edge) (s : State) : State := { s with pending := es }

/-- Record that a reserved word was performed (R87). -/
def State.withReservedSeen (s : State) : State := { s with reservedSeen := true }

/-- Record that there has been an edge with `rst = 1` (R107, R108). -/
def State.withResetDone (s : State) : State := { s with resetDone := true }

/-- The state after an edge with `rst = 1`, of a block built with the given `ACC_CAP` (R26). -/
def State.resetWith (accCap : Nat) : State :=
  { acc := [], sampleValid := false, frameErr := false, sampleData := 0, accCap := accCap, pending := [],
    reservedSeen := false, resetDone := true }

/-- The state after reset of the default build, `ACC_CAP = 32` (R7, R26). -/
def State.reset : State := State.resetWith Config.accCapDefault

end Sys2Proof.Machine
end

