-- ==== Sys2Proof/Machine/Operands.lean ====
section
/-! DEFINITION. The operand of PUSH (R44), slices of byte sequences (R11), and the byte orders of the frame's
checksum (R31) and of the output bus (R32). -/

namespace Sys2Proof.Machine

/-- The byte PUSH appends: `cmd[7:0]` as is, not extended, scaled or shifted (R44). -/
def pushOperand (b : Byte) : Byte := b

/-- `a[i..j]`: the bytes at positions `i` up to and excluding `j` (R11). -/
def slice (a : List Byte) (i j : Nat) : List Byte := (a.drop i).take (j - i)

/-- The candidate `acc[h..h+16]` (R75). -/
def candidateAt (acc : List Byte) (h : Nat) : List Byte := slice acc h (h + Config.frameLen)

/-- `zext_16(b)` (R12). -/
def zext16 (b : Byte) : Crc := b.zeroExtend 16

/-- The byte at a position of a candidate. A candidate has 16 bytes (R62), so the default is never read. -/
def byteAt (a : List Byte) (i : Nat) : Byte := a.getD i 0

/-- `crc_rx(cand) = zext_16(cand[14]) << 8 | zext_16(cand[15])`: big-endian (R31, R61). -/
def crcRx (cand : List Byte) : Crc :=
  (zext16 (byteAt cand Config.crcOff) <<< 8) ||| zext16 (byteAt cand (Config.crcOff + 1))

/-- The two bytes of a 16-bit value, high byte first (R31, R53). -/
def bigEndian16 (k : Crc) : List Byte := [k.extractLsb' 8 8, k.extractLsb' 0 8]

/-- `pack(p) = {p[10], ..., p[1], p[0]}`: `p[i]` stands at bits `8i+7 .. 8i` (R32, R67). -/
def pack : List Byte → SampleBus
  | [] => 0
  | b :: rest => (pack rest <<< 8) ||| b.zeroExtend 88

/-- Channel `i` of the output bus, `sample_data[8i+7:8i]` (R20, R32). -/
def channel (d : SampleBus) (i : Nat) : Byte := d.extractLsb' (8 * i) 8

end Sys2Proof.Machine
end

