-- ==== Sys2Proof/Machine/Codec.lean ====
section
/-! DEFINITION. The frame codec (spec/40_frame_codec.md): the checksum (R57, R58) and validate-and-decode (R62). -/

namespace Sys2Proof.Machine

/-- One of the 8 iterations of `CrcStep`: shift left, and XOR with the polynomial when bit 15 was set (R57). -/
def crcRound (c : Crc) : Crc := if c.msb then (c <<< 1) ^^^ Config.crcPoly else c <<< 1

/-- `n` iterations of `crcRound`. -/
def crcRounds : Nat → Crc → Crc
  | 0, c => c
  | n + 1, c => crcRounds n (crcRound c)

/-- `CrcStep(c, b)`: the byte into bits 15..8, then 8 iterations (R57). -/
def crcStep (c : Crc) (b : Byte) : Crc := crcRounds 8 (c ^^^ (zext16 b <<< 8))

/-- `Checksum(bs)`: CRC-16/CCITT-FALSE, no final XOR, no reflection (R58). -/
def checksum (bs : List Byte) : Crc := bs.foldl crcStep Config.crcInit

/-- `crc_calc(cand) = Checksum(cand[0..14])` (R61). -/
def crcCalc (cand : List Byte) : Crc := checksum (slice cand 0 Config.crcCover)

/-- The sample of a candidate, `cand[3..14]` (R63). -/
def payloadOf (cand : List Byte) : List Byte :=
  slice cand Config.payloadOff (Config.payloadOff + Config.payloadLen)

/-- The sequence starts with the marker `"$DC"`, by exact equality of 3 bytes (R72). -/
def startsWithMarker (a : List Byte) : Bool := a.take Config.markerLen == Config.marker

/-- What `ValidateAndDecode` answers (R62), with the violated precondition a model must tell apart (R91). -/
inductive Verdict where
  | ok (sample : List Byte)
  | checksumMismatch
  | preconditionViolated
  deriving DecidableEq, Repr

/-- `ValidateAndDecode(cand)` (R62). The block does not test the precondition; a model that meets it false
must fault (R91), so the model tests it. The checksum is the only integrity test (R66). -/
def validateAndDecode (cand : List Byte) : Verdict :=
  if cand.length = Config.frameLen ∧ startsWithMarker cand then
    if crcCalc cand = crcRx cand then .ok (payloadOf cand) else .checksumMismatch
  else .preconditionViolated

/-- A 16-byte sequence is well-formed: its marker and its checksum are right (R60). -/
def wellFormedFrame (f : List Byte) : Bool :=
  decide (f.length = Config.frameLen) && startsWithMarker f && decide (crcRx f = crcCalc f)

/-- The frame with a payload and an explicit checksum: `"$DC"`, payload, high byte, low byte (R54, R56). -/
def frameWith (payload : List Byte) (k : Crc) : List Byte := Config.marker ++ payload ++ bigEndian16 k

/-- The well-formed frame with a payload (R53). -/
def frameOf (payload : List Byte) : List Byte := frameWith payload (checksum (Config.marker ++ payload))

end Sys2Proof.Machine
end

