-- ==== Sys2Proof/Machine/Flags.lean ====
section
/-! DEFINITION. The two one-cycle pulses `sample_valid` and `frame_err` (R18, R19), which are all the flags the block
has, and the model's record of a reserved word (R87). -/

namespace Sys2Proof.Machine

/-- `sample_valid <- 0; frame_err <- 0`: every command does this first (R18, R19). -/
def clearPulses (s : State) : State := s.withPulses false false

/-- A candidate validated: `sample_valid <- 1; sample_data <- pack(p)` (R76). The argument is the packed sample. -/
def raiseSample (d : SampleBus) (s : State) : State := (s.withPulses true s.frameErr).withSampleData d

/-- A candidate was rejected: `frame_err <- 1` (R77). -/
def raiseMismatch (s : State) : State := s.withPulses s.sampleValid true

/-- Record, for the whole run, that a reserved word was performed (R87): the run is refused by it (`runStep`). -/
def markReserved (s : State) : State := s.withReservedSeen

end Sys2Proof.Machine
end

