-- ==== Sys2Proof/Machine/Ops.lean ====
section
/-! DEFINITION. The operations over the accumulator (R17), the marker search (R71), the reset action (R105), and the
extraction pass (R67, R70 to R79). The block takes no exceptions (R90, R94), so there is no operation that enters or
leaves one. -/

namespace Sys2Proof.Machine

/-- `FindMarker(acc)`: the least offset at which the 3 marker bytes stand (R71). -/
def findMarker : List Byte → Option Nat
  | [] => none
  | b :: rest => if startsWithMarker (b :: rest) then some 0 else (findMarker rest).map (· + 1)

/-- The greatest index that holds `0x24`, if there is one (R73). -/
def lastDollar : List Byte → Option Nat
  | [] => none
  | b :: rest =>
    match lastDollar rest with
    | some q => some (q + 1)
    | none => if b = Config.dollar then some 0 else none

/-- What a trim keeps: everything from the last `0x24`, or nothing (R73). -/
def trimmed (acc : List Byte) : List Byte :=
  match lastDollar acc with
  | some q => acc.drop q
  | none => []

/-- `AccAppend(b)` (R17 a, R69). -/
def accAppend (b : Byte) (s : State) : State := s.withAcc (s.acc ++ [b])

/-- `AccConsume(h)`: remove the bytes before the marker and the whole candidate (R17 b, R78). -/
def accConsume (h : Nat) (s : State) : State := s.withAcc (s.acc.drop (h + Config.frameLen))

/-- `AccTrim()` (R17 c, R73). -/
def accTrim (s : State) : State := s.withAcc (trimmed s.acc)

/-- `AccClear()` (R17 d). -/
def accClear (s : State) : State := s.withAcc []

/-- `AccDropOldest()` (R17 e). -/
def accDropOldest (s : State) : State := s.withAcc (s.acc.drop 1)

/-- The bound: a PUSH that finds `len(acc) = ACC_CAP` first removes the oldest byte (R68). -/
def makeRoom (s : State) : State := if s.acc.length = s.accCap then accDropOldest s else s

/-- The action of an edge with `rst = 1` (R105): every piece of the block's state takes its reset value, whatever it was,
and from then on the block's rules hold (R107, R108). -/
def resetEdge (s : State) : State := (((accClear s).withPulses false false).withSampleData 0).withResetDone

/-- The extraction pass of R67, with a bound on its iterations. The bound is R79's, so it is never what ends a pass:
with no iteration left the accumulator holds fewer than 16 bytes, and the pass stops by R70. -/
def passWithin : Nat → State → Host.Outcome State Fault Refusal
  | 0, s => .next s
  | n + 1, s =>
    if s.acc.length < Config.frameLen then .next s
    else
      match findMarker s.acc with
      | none => .next (accTrim s)
      | some h =>
        if s.acc.length - h < Config.frameLen then .next s
        else
          match validateAndDecode (candidateAt s.acc h) with
          | .ok p => passWithin n (accConsume h (raiseSample (pack p) s))
          | .checksumMismatch => passWithin n (accConsume h (raiseMismatch s))
          | .preconditionViolated => .fault .validatePrecondition

/-- `Pass()` (R67): at most `floor(len(acc) / 16) + 1` iterations (R79). -/
def pass (s : State) : Host.Outcome State Fault Refusal := passWithin (s.acc.length / Config.frameLen + 1) s

end Sys2Proof.Machine
end

