-- ==== Sys2Proof/Machine/Control.lean ====
section
/-! DEFINITION. The meanings of the commands that carry no byte (spec/42_control.md). Their data field has no effect
(R44, R47). -/

namespace Sys2Proof.Machine

/-- `NOP`: an idle edge ends the pulses (R85). -/
def execNop (_data : Byte) (s : State) : Host.Outcome State Fault Refusal := .next (clearPulses s)

/-- `CLEAR`: end the pulses and empty the accumulator; `sample_data` stays (R86, R88, R89). -/
def execClear (_data : Byte) (s : State) : Host.Outcome State Fault Refusal := .next (accClear (clearPulses s))

/-- The reserved op: the hardware does what NOP does (R46, R87). The model records it, and refuses
the run that contains it (`runStep` in Machine/Stream.lean). DESIGN CHOICE (log 3): that the refusal is the run's, and the
command itself has the hardware's effect. -/
def execReserved (_data : Byte) (s : State) : Host.Outcome State Fault Refusal :=
  .next (markReserved (clearPulses s))

end Sys2Proof.Machine
end

