-- ==== Sys2Proof/Machine/Push.lean ====
section
/-! DEFINITION. The meaning of PUSH (spec/41_stream_sync.md). -/

namespace Sys2Proof.Machine

/-- `PUSH b`: end the pulses, make room, append the byte, run the pass (R67). -/
def execPush (b : Byte) (s : State) : Host.Outcome State Fault Refusal :=
  pass (accAppend (pushOperand b) (makeRoom (clearPulses s)))

end Sys2Proof.Machine
end

