-- ==== Sys2Proof/Syntax.lean ====
section
/-! DEFINITION. The commands (R43) and the abstract form of an assembler line (R50 to R54). -/

namespace Sys2Proof

/-- The four operations of the `op` field (R43), one constructor per row of spec/opcode_table.json. Each carries the
word's whole data field, so that a command says every bit of its word: NOP, CLEAR and the reserved op ignore it
(R44, R47), and PUSH's is the received byte. -/
inductive Instr where
  /-- `NOP`, op 00 (R85). -/
  | nop (data : Byte)
  /-- `PUSH b`, op 01 (R67). -/
  | push (b : Byte)
  /-- `CLEAR`, op 10 (R86). -/
  | clear (data : Byte)
  /-- The reserved op 11 (R46, R87). -/
  | reserved (data : Byte)
  deriving DecidableEq, Repr

/-- The data field `cmd[7:0]` of a command (R42). -/
def Instr.data : Instr → Byte
  | .nop d => d
  | .push b => b
  | .clear d => d
  | .reserved d => d

/-- An `<imm8>` operand as written (R50): a number (hexadecimal or decimal), or a character literal. -/
inductive Imm where
  | num (n : Nat)
  | chr (c : Char)
  deriving DecidableEq, Repr

/-- One assembler line (R50 to R54). -/
inductive Asm where
  /-- `NOP` (R50). -/
  | nop
  /-- `PUSH <imm8>` (R50). -/
  | push (b : Imm)
  /-- `CLEAR` (R50). -/
  | clear
  /-- `.word w` (R50): the only way to write a reserved word. -/
  | word (w : Nat)
  /-- `PUSHB b0, ..., bn-1` (R51). -/
  | pushb (bs : List Imm)
  /-- `PUSHS "text"` (R52). -/
  | pushs (text : List Char)
  /-- `FRAME p0, ..., p10` (R53). -/
  | frame (p : List Imm)
  /-- `FRAMEX p0, ..., p10, k` (R54). -/
  | framex (p : List Imm) (k : Nat)
  /-- `IDLE n` (R54). -/
  | idle (n : Nat)
  deriving DecidableEq, Repr

end Sys2Proof
end

