-- ==== Sys2Proof/Machine/Dispatch.lean ====
section
/-! DEFINITION. The meaning of every command. -/

namespace Sys2Proof.Machine

/-- One command, taken whole at one edge (R36). -/
def exec (i : Instr) (s : State) : Host.Outcome State Fault Refusal :=
  match i with
  | .nop data => Sys2Proof.Machine.execNop data s
  | .push b => Sys2Proof.Machine.execPush b s
  | .clear data => Sys2Proof.Machine.execClear data s
  | .reserved data => Sys2Proof.Machine.execReserved data s

end Sys2Proof.Machine
end

