-- ==== Sys2Proof/Decode.lean ====
section
/-! DEFINITION. The decoder of a command word (R42 to R49), the encoder, and the opcode table of R45. -/

namespace Sys2Proof

/-- `op = cmd[9:8]` (R42). -/
def opField (w : Cmd) : BitVec 2 := w.extractLsb' 8 2

/-- `data = cmd[7:0]`, used as is (R42, R44). -/
def dataField (w : Cmd) : Byte := w.extractLsb' 0 8

/-- Decoding is total on all 1024 words: only `op` chooses the row, and `data` is carried along (R45, R49). -/
def decodeWord (w : Cmd) : Instr :=
  if opField w = 0b00#2 then .nop (dataField w)
  else if opField w = 0b01#2 then .push (dataField w)
  else if opField w = 0b10#2 then .clear (dataField w)
  else .reserved (dataField w)

/-- Why the decoder refuses a number: it is no 10-bit word, so it cannot stand on `cmd[9:0]` (R42). -/
inductive DecodeError where
  | widerThanCmd (w : Nat)
  deriving DecidableEq, Repr

/-- The decoder on any number: the command of a 10-bit word, or a rejection by name. -/
def decode (w : Nat) : Except DecodeError Instr :=
  if w < 1024 then .ok (decodeWord (BitVec.ofNat 10 w)) else .error (.widerThanCmd w)

/-- The two bits of each operation (R43). -/
def opOf : Instr → BitVec 2
  | .nop _ => 0b00#2
  | .push _ => 0b01#2
  | .clear _ => 0b10#2
  | .reserved _ => 0b11#2

/-- The command word `{op[1:0], data[7:0]}` (R42). -/
def encode (i : Instr) : Cmd := opOf i ++ i.data

/-- One row of the opcode table (R45): the words with `word & mask = match`. -/
structure OpcodeRow where
  mnemonic : String
  matchBits : Cmd
  mask : Cmd
  deriving DecidableEq, Repr

/-- The table of R45, in its order. -/
def opcodeTable : List OpcodeRow :=
  [⟨"NOP", 0x000, 0x300⟩, ⟨"PUSH", 0x100, 0x300⟩, ⟨"CLEAR", 0x200, 0x300⟩, ⟨"RESERVED", 0x300, 0x300⟩]

/-- A row holds a word (R45). -/
def OpcodeRow.holds (r : OpcodeRow) (w : Cmd) : Bool := w &&& r.mask == r.matchBits

/-- The mnemonic of a command's row (R43). -/
def mnemonicOf : Instr → String
  | .nop _ => "NOP"
  | .push _ => "PUSH"
  | .clear _ => "CLEAR"
  | .reserved _ => "RESERVED"

/-- The number the opcode table gives an instruction of `nbits` bits: the bits above are zero. -/
def tableBits (nbits w : Nat) : Nat := w % 2 ^ nbits

/-- The command the decoder reads from a word numbered as spec/opcode_table.json numbers it: the one word of a
command is the port's word, bit 0 the least significant. -/
def decodeTableWord (nbits w : Nat) : Option Instr := (decode (tableBits nbits w)).toOption

end Sys2Proof
end

