-- ==== Sys2Proof/Machine/Edges.lean ====
section
/-! DEFINITION. The input of the next edge: how a command word comes to stand on the `cmd` port (R13, R42). -/

namespace Sys2Proof.Machine

/-- An edge with `rst = 0` and a command on `cmd`. -/
def commandEdge (i : Instr) : Edge := { rst := false, cmd := encode i }

/-- An edge with `rst = 1`; the word on `cmd` is lost (R105). -/
def rstEdge (w : Cmd) : Edge := { rst := true, cmd := w }

/-- The input with one more edge in front of it, `rst = 0` and the opcode table's word on `cmd`. The port has 10 bits
(R42), so bits above them do not reach it. -/
def withTableWord (s : State) (nbits w : Nat) : State :=
  s.withPending ({ rst := false, cmd := BitVec.ofNat 10 (tableBits nbits w) } :: s.pending)

end Sys2Proof.Machine
end

