-- ==== Sys2Proof/Machine/Step.lean ====
section
/-! DEFINITION. One rising edge of `clk` (R13, R103, R105). -/

namespace Sys2Proof.Machine

/-- One rising edge: the environment's next input is taken. With `rst = 1` the block resets and the word on `cmd` is
lost (R105); with `rst = 0` it performs the word on `cmd` (R113). Before the
first edge with `rst = 1` a word has an unspecified effect, and the step is refused by name (R107, U1; log 5). When the finite command sequence has ended there is
no edge, and the step is refused by name (R98). -/
def step (s : State) : Host.Outcome State Fault Refusal :=
  match s.pending with
  | [] => .refused .noEdge
  | e :: rest =>
    if e.rst then .next (resetEdge (s.withPending rest))
    else if s.resetDone then exec (decodeWord e.cmd) (s.withPending rest)
    else .refused .beforeReset

/-- `s` with one more edge in front of its input: `rst = 0` and the given word of the opcode table on `cmd`. -/
def State.withFetchWord (s : State) (nbits w : Nat) : State := withTableWord s nbits w

end Sys2Proof.Machine
end

