-- ==== Sys2Proof/WellFormed.lean ====
section
/-! DEFINITION. Which commands and assembler lines are well formed. A command's operand is a byte by its type, so
every command has a word (R45). The checks on commands say which of them a conforming environment issues (R46,
R108) and which are canonical (R45, R50). The checks on assembler lines are the assembly errors of R50 to R54. -/

namespace Sys2Proof

/-- A command a conforming environment may issue: every op but the reserved one (R46, R108). -/
def Instr.conforming : Instr → Bool
  | .nop _ => true
  | .push _ => true
  | .clear _ => true
  | .reserved _ => false

/-- The canonical spelling: `data = 0x00` for NOP and CLEAR (R44, R45). The reserved op has no spelling (R50). -/
def Instr.canonical : Instr → Bool
  | .nop d => d == 0
  | .push _ => true
  | .clear d => d == 0
  | .reserved _ => false

/-- An `<imm8>` is a value `0..255`, or a character that has an ASCII code (R50). -/
def Imm.wf : Imm → Bool
  | .num n => decide (n < 256)
  | .chr c => decide (c.toNat < 128)

/-- Why the assembler refuses a line (R50 to R54). -/
inductive AsmError where
  /-- An operand outside `0..255`, or a character with no ASCII code (R50). -/
  | imm8OutOfRange
  /-- A `.word` value that is no 10-bit word (R42). -/
  | wordOutOfRange
  /-- A `PUSHB` with no byte (R51). -/
  | noOperands
  /-- A `FRAME` or `FRAMEX` whose payload is not exactly 11 bytes (R53, R54). -/
  | payloadLength
  /-- A `FRAMEX` checksum that is no 16-bit value (R54). -/
  | checksumOutOfRange
  /-- A `PUSHS` character with no ASCII code (R52). -/
  | notAscii
  /-- Text that is no line of R50 to R54. -/
  | badLine
  deriving DecidableEq, Repr

/-- The first check of a line that fails, or none. -/
def Asm.error : Asm → Option AsmError
  | .nop => none
  | .push b => if b.wf then none else some .imm8OutOfRange
  | .clear => none
  | .word w => if w < 1024 then none else some .wordOutOfRange
  | .pushb bs => if bs.isEmpty then some .noOperands else if bs.all Imm.wf then none else some .imm8OutOfRange
  | .pushs t => if t.all (fun c => decide (c.toNat < 128)) then none else some .notAscii
  | .frame p =>
    if p.length ≠ Config.payloadLen then some .payloadLength
    else if p.all Imm.wf then none else some .imm8OutOfRange
  | .framex p k =>
    if p.length ≠ Config.payloadLen then some .payloadLength
    else if ¬ p.all Imm.wf then some .imm8OutOfRange
    else if k < 65536 then none else some .checksumOutOfRange
  | .idle _ => none

/-- A line the assembler accepts. -/
def Asm.wf (a : Asm) : Bool := a.error.isNone

end Sys2Proof
end

