-- ==== Sys2Proof/Machine/Assembler.lean ====
section
/-! DEFINITION. The assembler: what a line stands for (R50 to R54), the words of a chunk (R48), and the reading of a
line's text (R50). -/

namespace Sys2Proof.Machine

/-- A chunk `OnBytesReceived([b0, ..., bn-1])`, written as the words `PUSH b0, ..., PUSH bn-1` (R48, R84). -/
def pushWords (bs : List Byte) : List Cmd := bs.map (fun b => encode (.push b))

/-- The value an `<imm8>` writes: the number, or the character's code, which below 128 is its ASCII code (R50). -/
def immValue : Imm → Nat
  | .num n => n
  | .chr c => c.toNat

/-- The byte of an `<imm8>` (R50). -/
def immByte (b : Imm) : Byte := BitVec.ofNat 8 (immValue b)

/-- The words a line stands for (R50 to R54). -/
def expand : Asm → List Cmd
  | .nop => [encode (.nop 0)]
  | .push b => [encode (.push (immByte b))]
  | .clear => [encode (.clear 0)]
  | .word w => [BitVec.ofNat 10 w]
  | .pushb bs => pushWords (bs.map immByte)
  | .pushs t => pushWords (t.map (fun c => immByte (.chr c)))
  | .frame p => pushWords (frameOf (p.map immByte))
  | .framex p k => pushWords (frameWith (p.map immByte) (BitVec.ofNat 16 k))
  | .idle n => List.replicate n (encode (.nop 0))

/-- The words of a line, or the assembly error. -/
def assemble (a : Asm) : Except AsmError (List Cmd) :=
  match a.error with
  | some e => .error e
  | none => .ok (expand a)

/-- The assembler warns when it meets a reserved word (R50). -/
def warns : Asm → Bool
  | .word w => !(decodeWord (BitVec.ofNat 10 w)).conforming
  | _ => false

/-- The parts of a line's text. -/
inductive Token where
  | ident (s : List Char)
  | num (n : Nat)
  | chr (c : Char)
  | str (s : List Char)
  | comma
  deriving DecidableEq, Repr

/-- Where the reading of a line stands. -/
inductive LexMode where
  | gap
  | word (read : List Char)
  | chrOpen
  | chrClose (c : Char)
  | str (read : List Char)
  | comment
  deriving DecidableEq, Repr

/-- A character of a mnemonic or a number. -/
def isWordChar (c : Char) : Bool := c.isAlphanum || c == '.'

/-- The value of a digit: decimal or hexadecimal. -/
def digitValue (c : Char) : Option Nat :=
  if '0' ≤ c ∧ c ≤ '9' then some (c.toNat - '0'.toNat)
  else if 'a' ≤ c ∧ c ≤ 'f' then some (c.toNat - 'a'.toNat + 10)
  else if 'A' ≤ c ∧ c ≤ 'F' then some (c.toNat - 'A'.toNat + 10)
  else none

/-- The number that digits spell in a base, after the value read so far. -/
def digitsValue (base : Nat) : Nat → List Char → Option Nat
  | n, [] => some n
  | n, c :: rest =>
    match digitValue c with
    | some d => if d < base then digitsValue base (n * base + d) rest else none
    | none => none

/-- A word of the text: a number, hexadecimal after `0x` and else decimal, or a name (R50). -/
def wordToken : List Char → Option Token
  | '0' :: 'x' :: c :: rest => (digitsValue 16 0 (c :: rest)).map .num
  | c :: rest => if c.isDigit then (digitsValue 10 0 (c :: rest)).map .num else some (.ident (c :: rest))
  | [] => none

/-- One character outside every token. `;` opens a comment (R50). -/
def lexGap (c : Char) : Option (List Token × LexMode) :=
  if c = ' ' ∨ c = '\t' then some ([], .gap)
  else if c = ';' then some ([], .comment)
  else if c = ',' then some ([.comma], .gap)
  else if c = Char.ofNat 0x27 then some ([], .chrOpen)
  else if c = Char.ofNat 0x22 then some ([], .str [])
  else if isWordChar c then some ([], .word [c])
  else none

/-- One character of a line: the tokens it ends, and where the reading then stands. -/
def lexStep (c : Char) : LexMode → Option (List Token × LexMode)
  | .gap => lexGap c
  | .word read =>
    if isWordChar c then some ([], .word (c :: read))
    else
      match wordToken read.reverse, lexGap c with
      | some t, some (ts, m) => some (t :: ts, m)
      | _, _ => none
  | .chrOpen => some ([], .chrClose c)
  | .chrClose d => if c = Char.ofNat 0x27 then some ([.chr d], .gap) else none
  | .str read => if c = Char.ofNat 0x22 then some ([.str read.reverse], .gap) else some ([], .str (c :: read))
  | .comment => some ([], .comment)

/-- The tokens of a line's text. -/
def lex : LexMode → List Char → Option (List Token)
  | .gap, [] => some []
  | .comment, [] => some []
  | .word read, [] => (wordToken read.reverse).map (fun t => [t])
  | .chrOpen, [] => none
  | .chrClose _, [] => none
  | .str _, [] => none
  | m, c :: rest =>
    match lexStep c m with
    | some (ts, m') => (lex m' rest).map (ts ++ ·)
    | none => none

/-- An `<imm8>` token. -/
def immOf : Token → Option Imm
  | .num n => some (.num n)
  | .chr c => some (.chr c)
  | _ => none

/-- Operands separated by commas, at least one. -/
def operands : List Token → Option (List Imm)
  | [t] => (immOf t).map (fun b => [b])
  | t :: .comma :: rest =>
    match immOf t, operands rest with
    | some b, some bs => some (b :: bs)
    | _, _ => none
  | _ => none

/-- A `FRAMEX` line: the payload's operands, then the checksum (R54). -/
def framexOf (ops : List Imm) : Option Asm :=
  match ops.getLast? with
  | some (.num k) => some (.framex ops.dropLast k)
  | _ => none

/-- The line that a name and its operands' tokens spell (R50 to R54). -/
def lineOf (name : List Char) (args : List Token) : Option Asm :=
  if name = ['N', 'O', 'P'] then (if args = [] then some .nop else none)
  else if name = ['C', 'L', 'E', 'A', 'R'] then (if args = [] then some .clear else none)
  else if name = ['P', 'U', 'S', 'H'] then
    match operands args with
    | some [b] => some (.push b)
    | _ => none
  else if name = ['.', 'w', 'o', 'r', 'd'] then
    match args with
    | [.num w] => some (.word w)
    | _ => none
  else if name = ['P', 'U', 'S', 'H', 'B'] then (operands args).map .pushb
  else if name = ['P', 'U', 'S', 'H', 'S'] then
    match args with
    | [.str t] => some (.pushs t)
    | _ => none
  else if name = ['F', 'R', 'A', 'M', 'E'] then (operands args).map .frame
  else if name = ['F', 'R', 'A', 'M', 'E', 'X'] then (operands args).bind framexOf
  else if name = ['I', 'D', 'L', 'E'] then
    match args with
    | [.num n] => some (.idle n)
    | _ => none
  else none

/-- The line a text spells: none where it is blank or a comment only (R50). -/
def parseLine (text : List Char) : Except AsmError (Option Asm) :=
  match lex .gap text with
  | some [] => .ok none
  | some (.ident name :: args) =>
    match lineOf name args with
    | some a => .ok (some a)
    | none => .error .badLine
  | _ => .error .badLine

/-- The words of a line's text. -/
def assembleLine (text : List Char) : Except AsmError (List Cmd) :=
  match parseLine text with
  | .ok none => .ok []
  | .ok (some a) => assemble a
  | .error e => .error e

/-- The words of a program, one line after another (R50). -/
def assembleProgram : List (List Char) → Except AsmError (List Cmd)
  | [] => .ok []
  | l :: rest =>
    match assembleLine l, assembleProgram rest with
    | .ok ws, .ok more => .ok (ws ++ more)
    | .error e, _ => .error e
    | _, .error e => .error e

end Sys2Proof.Machine
end

