-- ==== Sys2Proof/Machine/Ports.lean ====
section
/-! DEFINITION. The output ports (R21, R25), which are all an environment can observe (R98). -/

namespace Sys2Proof.Machine

/-- The architectural state, the tuple `(acc, sample_valid, frame_err, sample_data)` (R15). -/
def arch (s : State) : List Byte × Bool × Bool × SampleBus := (s.acc, s.sampleValid, s.frameErr, s.sampleData)

/-- `ACC_LEVEL_W = ceil(log2(ACC_CAP + 1))` (R8), computed as `floor(log2 ACC_CAP) + 1`, which is the same number
for every `ACC_CAP >= 1` (Laws/Ports.lean, accLevelW_eq_clog). -/
def accLevelW (accCap : Nat) : Nat := Nat.log2 accCap + 1

/-- `acc_level[ACC_LEVEL_W-1:0]`: the number of bytes held, a function of `acc` and no state of its own (R21). -/
def accLevel (s : State) : BitVec (accLevelW s.accCap) := BitVec.ofNat _ s.acc.length

/-- The output ports in one cycle (R25). The level stands here as the number its port carries. -/
structure Ports where
  sampleValid : Bool
  sampleData : SampleBus
  frameErr : Bool
  accLevel : Nat
  deriving DecidableEq, Repr

/-- The port values from just after an edge until the next one (R103, R114). -/
def ports (s : State) : Ports :=
  { sampleValid := s.sampleValid, sampleData := s.sampleData, frameErr := s.frameErr, accLevel := (accLevel s).toNat }

end Sys2Proof.Machine
end

