-- ==== Sys2Proof/Machine/Stream.lean ====
section
/-! DEFINITION. Runs and what they show: a run and its refusal (R13, R46, R87), its observation (R98), its events
(R92), the stream function `Extract` (R82), and the source's own algorithm on chunks (R69, R82, R84). -/

namespace Sys2Proof.Machine

/-- An event on the output ports (R92). The sample is named by the packed value its port shows. -/
inductive Event where
  /-- `SampleDecoded`: `sample_valid = 1`, with `sample_data`. -/
  | sampleDecoded (data : SampleBus)
  /-- `ChecksumMismatch`: `frame_err = 1`. -/
  | checksumMismatch
  deriving DecidableEq, Repr

/-- The sample an event decodes, as its port shows it. -/
def decodedSample : Event → Option SampleBus
  | .sampleDecoded d => some d
  | .checksumMismatch => none

/-- The events one cycle's ports show (R92). -/
def portEvents (p : Ports) : List Event :=
  (if p.sampleValid then [.sampleDecoded p.sampleData] else []) ++ (if p.frameErr then [.checksumMismatch] else [])

/-- Go on with what an outcome answers. A fault or a refusal stays. -/
def thenNext {α β : Type} (o : Host.Outcome α Fault Refusal) (k : α → Host.Outcome β Fault Refusal) :
    Host.Outcome β Fault Refusal :=
  match o with
  | .next a => k a
  | .fault f => .fault f
  | .refused r => .refused r

/-- One edge of a run. The hardware performs a reserved word as a NOP, but a model refuses a run that contains one, and
the record keeps the refusal for the whole run, also past an edge with `rst = 1` (R46, R87, D5, U2). -/
def runStep (s : State) : Host.Outcome State Fault Refusal :=
  thenNext (step s) (fun t => if t.reservedSeen then .refused .reservedInRun else .next t)

/-- The state after `n` edges of a run (R13), or why there is none. A refusal is of an edge, so after no edge it is the
state itself, before the first `rst` and in a refused run too. DESIGN CHOICE (log 13). -/
def afterEdges : Nat → State → Host.Outcome State Fault Refusal
  | 0, s => .next s
  | n + 1, s => thenNext (runStep s) (afterEdges n)

/-- The observation of `n` edges of a run: the port values after each (R13, R98). A refused run has none; no edge at all
gives the empty observation from every state. DESIGN CHOICE (log 13). -/
def observations : Nat → State → Host.Outcome (List Ports) Fault Refusal
  | 0, _ => .next []
  | n + 1, s => thenNext (runStep s) (fun t => thenNext (observations n t) (fun ps => .next (ports t :: ps)))

/-- The observation of a state's whole input. -/
def observed (s : State) : Host.Outcome (List Ports) Fault Refusal := observations s.pending.length s

/-- The events of a state's whole input, one list an edge. -/
def edgeEvents (s : State) : Host.Outcome (List (List Event)) Fault Refusal :=
  thenNext (observed s) (fun ps => .next (ps.map portEvents))

/-- The events of a state's whole input, in order. -/
def runEvents (s : State) : Host.Outcome (List Event) Fault Refusal :=
  thenNext (edgeEvents s) (fun es => .next es.flatten)

/-- A state with edges as its input. -/
def driven (s : State) (es : List Edge) : State := s.withPending es

/-- The edges of command words, one word per edge (R42). -/
def wordEdges (ws : List Cmd) : List Edge := ws.map (fun w => { rst := false, cmd := w })

/-- The byte an edge pushes, if it performs a PUSH. -/
def pushedByte (e : Edge) : Option Byte :=
  if e.rst then none
  else
    match decodeWord e.cmd with
    | .push b => some b
    | .nop _ => none
    | .clear _ => none
    | .reserved _ => none

/-- The byte stream of an input. -/
def pushedBytes (es : List Edge) : List Byte := es.filterMap pushedByte

/-- An edge that performs a PUSH or a NOP. -/
def isPushOrNop (e : Edge) : Bool :=
  !e.rst &&
    match decodeWord e.cmd with
    | .push _ => true
    | .nop _ => true
    | .clear _ => false
    | .reserved _ => false

/-- The five outcomes of a PUSH (R81). -/
inductive PushOutcome where
  | insufficient
  | trimmed
  | waiting
  | validated
  | rejected
  deriving DecidableEq, Repr

/-- The outcome of a PUSH, from what the accumulator holds after the drop and the append (R81). -/
def outcomeOf (acc : List Byte) : PushOutcome :=
  if acc.length < Config.frameLen then .insufficient
  else
    match findMarker acc with
    | none => .trimmed
    | some h =>
      if acc.length - h < Config.frameLen then .waiting
      else
        match validateAndDecode (candidateAt acc h) with
        | .ok _ => .validated
        | .checksumMismatch => .rejected
        | .preconditionViolated => .rejected

/-- The outcome of `PUSH b` in a state (R81). -/
def pushOutcome (b : Byte) (s : State) : PushOutcome := outcomeOf ((makeRoom s).acc ++ [pushOperand b])

/-- The source's signals (R83). -/
inductive Signal where
  | insufficientData
  | frameNotYetComplete
  | noSyncFound
  | checksumMismatch
  deriving DecidableEq, Repr

/-- The source's classes of them (R83). -/
inductive SignalClass where
  | transientIncomplete
  | desynchronized
  | integrityFailure
  deriving DecidableEq, Repr

/-- The signal of an outcome; a validated candidate has none (R83). -/
def signalOf : PushOutcome → Option Signal
  | .insufficient => some .insufficientData
  | .waiting => some .frameNotYetComplete
  | .trimmed => some .noSyncFound
  | .rejected => some .checksumMismatch
  | .validated => none

/-- The class of a signal (R83). -/
def classOf : Signal → SignalClass
  | .insufficientData => .transientIncomplete
  | .frameNotYetComplete => .transientIncomplete
  | .noSyncFound => .desynchronized
  | .checksumMismatch => .integrityFailure

/-- The event of a complete candidate (R76, R77). -/
def candidateEvent (cand : List Byte) : Event :=
  match validateAndDecode cand with
  | .ok p => .sampleDecoded (pack p)
  | .checksumMismatch => .checksumMismatch
  | .preconditionViolated => .checksumMismatch

/-- The least `i >= p` at which the marker stands in `B` (R82). -/
def findMarkerFrom (p : Nat) (B : List Byte) : Option Nat := (findMarker (B.drop p)).map (· + p)

/-- The loop of `Extract` from position `p`, with its marker offsets `h_k` (R82), bounded by a number of rounds. -/
def extractFrom : Nat → Nat → List Byte → List (Nat × Event)
  | 0, _, _ => []
  | n + 1, p, B =>
    match findMarkerFrom p B with
    | none => []
    | some h =>
      if B.length < h + Config.frameLen then []
      else (h, candidateEvent (candidateAt B h)) :: extractFrom n (h + Config.frameLen) B

/-- `Extract(B)` with the marker offset of each event (R82). Every round but the last passes 16 bytes, so the bound on
the rounds is never what ends it. -/
def extractAt (B : List Byte) : List (Nat × Event) := extractFrom (B.length / Config.frameLen + 1) 0 B

/-- `Extract(B)` (R82). -/
def extract (B : List Byte) : List Event := (extractAt B).map Prod.snd

/-- What the spec's stream law varies (R82): the capacity, `none` for the source's unbounded accumulator, and the
reading of decision D9, `true` for keeping the accumulator when it holds no `'$'`. -/
structure Reading where
  cap : Option Nat
  keepWithoutDollar : Bool
  deriving DecidableEq, Repr

/-- What a trim keeps under a reading of D9 (R73). -/
def trimmedBy (r : Reading) (acc : List Byte) : List Byte :=
  match lastDollar acc with
  | some q => acc.drop q
  | none => if r.keepWithoutDollar then acc else []

/-- The source's extraction loop on an accumulator (steps 1 to 4 of its §4.2, R70 to R79), with its events. -/
def sourcePass (r : Reading) : Nat → List Byte → List Byte × List Event
  | 0, acc => (acc, [])
  | n + 1, acc =>
    if acc.length < Config.frameLen then (acc, [])
    else
      match findMarker acc with
      | none => (trimmedBy r acc, [])
      | some h =>
        if acc.length - h < Config.frameLen then (acc, [])
        else
          let rest := sourcePass r n (acc.drop (h + Config.frameLen))
          (rest.1, candidateEvent (candidateAt acc h) :: rest.2)

/-- Room for the next byte under a capacity (R68). -/
def roomUnder (cap : Option Nat) (acc : List Byte) : List Byte :=
  if cap = some acc.length then acc.drop 1 else acc

/-- `OnBytesReceived(chunk)` (R69, R84): append the chunk, then extract until no full frame is left. -/
def onBytesReceived (r : Reading) (acc chunk : List Byte) : List Byte × List Event :=
  let all := roomUnder r.cap acc ++ chunk
  sourcePass r (all.length / Config.frameLen + 1) all

/-- The events of chunks received one after another. -/
def chunkEvents (r : Reading) : List Byte → List (List Byte) → List Event
  | _, [] => []
  | acc, c :: rest => (onBytesReceived r acc c).2 ++ chunkEvents r (onBytesReceived r acc c).1 rest

/-- The events of each call of `OnBytesReceived`, one list a call (R84). -/
def callEvents (r : Reading) : List Byte → List (List Byte) → List (List Event)
  | _, [] => []
  | acc, c :: rest => (onBytesReceived r acc c).2 :: callEvents r (onBytesReceived r acc c).1 rest

/-- The edges of a chunk: one PUSH word per byte (R48, R84). -/
def chunkEdges (c : List Byte) : List Edge := wordEdges (pushWords c)

/-- The events the block raises over the edges of each chunk, one list a chunk (R84). -/
def blockCallEvents : State → List (List Byte) → Host.Outcome (List (List Event)) Fault Refusal
  | _, [] => .next []
  | s, c :: rest =>
    thenNext (runEvents (driven s (chunkEdges c))) (fun evs =>
      thenNext (afterEdges c.length (driven s (chunkEdges c))) (fun t =>
        thenNext (blockCallEvents t rest) (fun more => .next (evs :: more))))

end Sys2Proof.Machine
end

