-- ==== Sys2Proof/Safety.lean ====
section
/-! DEFINITION. What the states and the inputs of a conforming run satisfy. -/

namespace Sys2Proof.Machine

/-- `Inv(acc)` of R28, for a block with the given capacity. -/
def AccInv (accCap : Nat) (acc : List Byte) : Prop :=
  acc.length ≤ accCap ∧
  (16 ≤ acc.length → ∀ h, findMarker acc = some h → acc.length - h ≤ 15) ∧
  (16 ≤ acc.length → findMarker acc = none →
    acc[0]? = some Config.dollar ∧ ∀ i, 1 ≤ i → i < acc.length → acc[i]? ≠ some Config.dollar)

/-- The build's capacity is a legal one (R7) and the accumulator is in a reachable form (R28). -/
def StateInv (s : State) : Prop := Config.accCapMin ≤ s.accCap ∧ AccInv s.accCap s.acc

/-- The two pulses are never 1 together (R81, R93). -/
def PulsesExclusive (s : State) : Prop := ¬ (s.sampleValid = true ∧ s.frameErr = true)

/-- An edge a conforming environment may drive: a word with `op` 00, 01 or 10 (R46, R98, R108), or any word at an edge
with `rst = 1`. DESIGN CHOICE (log 12): the spec leaves open whether a reserved word on `cmd` at an edge with `rst = 1`
conforms (R98 and R108 say none is driven, R42 and R105 that `cmd` is ignored then), and the model counts it as
conforming, since no reserved word is performed. -/
def edgeConforming (e : Edge) : Bool := e.rst || (decodeWord e.cmd).conforming

/-- The run starts with `rst`: there has been an edge with `rst = 1`, or the next edge is one (R107, R108). DESIGN CHOICE
(log 13): the spec does not say what an input with no edge at all is before the first `rst` (R13 calls a run "a reset
followed by" commands), and the model counts it as starting with `rst`, since no edge is there that could be refused. -/
def startsWithReset (s : State) : Bool := s.resetDone || s.pending.head?.all Edge.rst

/-- A conforming run: it starts with `rst` (R107, R108), no reserved word has been performed, and none is to be performed
at an edge to come (R46, R87; log 12 for the word on `cmd` at an edge with `rst = 1`). -/
def Conforming (s : State) : Prop :=
  startsWithReset s = true ∧ s.reservedSeen = false ∧ ∀ e ∈ s.pending, edgeConforming e = true

end Sys2Proof.Machine
end

