-- ==== Sys2Proof/Certificates/Slice0/Obligations.lean ====
section
/-! DEFINITION. The statements about the model, for the provers. Each docstring names the rule it formalises. -/

open Sys2Proof Sys2Proof.Machine

/-! ## The command word -/

/-- Decoding and encoding are inverse on all commands and on all 1024 words (spec/30_encoding.md sections 1 and 2). That
a decoded NOP, CLEAR or reserved command keeps its data field, so that non-canonical words too are given back and no bit
is dropped, is the model's choice (log 6): the spec says only that the field has no effect (R44, R47). -/
def Obligations.DecodeEncodeAgree : Prop :=
  (∀ i : Instr, decodeWord (encode i) = i) ∧ (∀ w : Cmd, encode (decodeWord w) = w)

/-- R45: the four word ranges and what each decodes to; the four match and mask rows do not overlap, cover every word
and agree with the decoder; the canonical spellings. -/
def Obligations.OpcodeTableDecidesEveryWord : Prop :=
  (∀ w : Cmd,
    (w.toNat ≤ 0x0FF → ∃ d, decodeWord w = .nop d) ∧
    (0x100 ≤ w.toNat → w.toNat ≤ 0x1FF → decodeWord w = .push (BitVec.ofNat 8 (w.toNat &&& 0xFF))) ∧
    (0x200 ≤ w.toNat → w.toNat ≤ 0x2FF → ∃ d, decodeWord w = .clear d) ∧
    (0x300 ≤ w.toNat → ∃ d, decodeWord w = .reserved d)) ∧
  opcodeTable.map (fun r => (r.mnemonic, r.matchBits, r.mask)) =
    [("NOP", 0x000, 0x300), ("PUSH", 0x100, 0x300), ("CLEAR", 0x200, 0x300), ("RESERVED", 0x300, 0x300)] ∧
  (∀ w : Cmd, ∃ r, r ∈ opcodeTable ∧ r.holds w = true ∧ mnemonicOf (decodeWord w) = r.mnemonic ∧
    ∀ r', r' ∈ opcodeTable → r'.holds w = true → r' = r) ∧
  (encode (.nop 0) = 0x000 ∧ (∀ b : Byte, encode (.push b) = 0x100 ||| b.zeroExtend 10) ∧ encode (.clear 0) = 0x200)

/-- Words written out from R42, R43 and R47, and what each stands for. That `clear 0xA5` and `reserved 0xFF` keep their
data field, and that a number wider than the port is refused by the name `widerThanCmd`, are the model's choices
(log 6). -/
def Obligations.WordsOfEachOpDecode : Prop :=
  decode 0b0000000000 = .ok (.nop 0) ∧ decode 0b0100100100 = .ok (.push 0x24) ∧
  decode 0b0110100010 = .ok (.push 0xA2) ∧ decode 0b1000000000 = .ok (.clear 0) ∧
  decode 0b1010100101 = .ok (.clear 0xA5) ∧ decode 0b1111111111 = .ok (.reserved 0xFF) ∧
  decode 0b10000000000 = .error (.widerThanCmd 1024)

/-- R44: PUSH appends exactly the byte `cmd[7:0]`; for the other ops the data field has no effect; an assembler writes
`data = 0x00` for NOP and CLEAR. -/
def Obligations.DataFieldIsThePushByteOnly : Prop :=
  (∀ (w : Cmd) (s : State), opField w = 0b01#2 →
    exec (decodeWord w) s = pass (accAppend (w.setWidth 8) (makeRoom (clearPulses s)))) ∧
  (∀ (w w' : Cmd) (s : State), opField w = opField w' → opField w ≠ 0b01#2 →
    exec (decodeWord w) s = exec (decodeWord w') s) ∧
  (assemble .nop = .ok [0x000] ∧ assemble .clear = .ok [0x200])

/-! ## One edge -/

/-- Once there has been an `rst` (R107, R108), an edge with `rst = 0` performs the command its word decodes to, on the
state with that edge taken from the input (R13, R113). A word of the opcode table put on the port is the very next
command. -/
def Obligations.StepRunsTheDecodedCommand : Prop :=
  (∀ (s : State) (e : Edge) (rest : List Edge) (i : Instr), s.resetDone = true →
    s.pending = e :: rest → e.rst = false → decodeWord e.cmd = i → step s = exec i (s.withPending rest)) ∧
  (∀ (s : State) (i : Instr), s.resetDone = true → step (s.withFetchWord 16 (encode i).toNat) = exec i s)

/-- R105: an edge with `rst = 1` gives the block's whole state its reset values, whatever word is on `cmd`; that
command is lost and not performed later; the first edge with `rst = 0` performs its own word. -/
def Obligations.ResetActionTakesPriority : Prop :=
  (∀ (s : State) (e : Edge) (rest : List Edge), s.pending = e :: rest → e.rst = true →
    ∃ t, step s = .next t ∧ arch t = ([], false, false, 0) ∧ t.pending = rest ∧ t.accCap = s.accCap) ∧
  (∀ (s : State) (w w' : Cmd) (rest : List Edge),
    ∃ t, step (s.withPending (rstEdge w :: { rst := false, cmd := w' } :: rest)) = .next t ∧
      arch t = ([], false, false, 0) ∧ step t = exec (decodeWord w') (t.withPending rest))

/-- R26, its table: after an edge with `rst = 1`, `acc = []` (so `acc_level = 0`), `sample_valid = 0`,
`frame_err = 0` and `sample_data` is 88 zero bits, for every build and for the default one, `ACC_CAP = 32` (R7). That the
model's reset state has no input to come and no reserved word recorded is the model's choice (logs 1 and 3). It is the
state such an edge leaves, whatever the block's state was before, power-up included (log 5). -/
def Obligations.ResetStateValues : Prop :=
  (∀ c : Nat, arch (State.resetWith c) = ([], false, false, 0) ∧ (accLevel (State.resetWith c)).toNat = 0 ∧
    (State.resetWith c).accCap = c) ∧
  State.reset = State.resetWith 32 ∧
  (∀ (s : State) (w : Cmd), s.reservedSeen = false → step (driven s [rstEdge w]) = .next (State.resetWith s.accCap))

/-- R104: holding `rst` high for `n >= 1` edges has the same effect as holding it for one, whatever stands on `cmd`: one
edge more changes nothing in any state, and `n` edges of a run leave what one edge leaves. The runs are those that hold
no reserved word before it: a run with one is refused (R87). -/
def Obligations.HoldingResetIsOneReset : Prop :=
  (∀ (s : State) (w w' : Cmd) (rest : List Edge), ∃ t u,
    step (s.withPending (rstEdge w :: rstEdge w' :: rest)) = .next t ∧ step t = .next u ∧ u = t.withPending rest ∧
      step (s.withPending (rstEdge w :: rest)) = .next u ∧ arch u = ([], false, false, 0)) ∧
  (∀ (s : State) (w : Cmd) (ws : List Cmd) (rest : List Edge), ws ≠ [] → s.reservedSeen = false →
    (∃ t, afterEdges 1 (s.withPending (rstEdge w :: rest)) = .next t ∧ arch t = ([], false, false, 0)) ∧
    afterEdges ws.length (s.withPending (ws.map rstEdge ++ rest)) = afterEdges 1 (s.withPending (rstEdge w :: rest)))

/-- R90, R110: no state that follows a reset (R107, R108), and no input, makes the block trap, halt or stall. Every edge
then completes with a next state, an edge that performs a reserved word too, and an edge with `rst = 1` completes from
every state. A run that starts with `rst` completes, or is one that a model refuses for a reserved word (R87), and a
conforming run completes. That an edge is taken from the input is the model's form of it (log 1). For a run that does not
start with `rst` see RunsNotStartedByResetRefused. That an input of no edges counts as one that starts with `rst` is the
model's choice (log 13). -/
def Obligations.EveryEdgeCompletes : Prop :=
  (∀ (s : State) (e : Edge) (rest : List Edge), s.pending = e :: rest → s.resetDone = true ∨ e.rst = true →
    ∃ t, step s = .next t ∧ t.pending = rest ∧ t.accCap = s.accCap ∧ t.resetDone = true) ∧
  (∀ (s : State) (es : List Edge), startsWithReset (driven s es) = true →
    (∃ t, afterEdges es.length (driven s es) = .next t ∧ t.pending = []) ∨
      afterEdges es.length (driven s es) = .refused .reservedInRun) ∧
  (∀ (s : State) (es : List Edge), Conforming (driven s es) →
    ∃ t, afterEdges es.length (driven s es) = .next t ∧ t.pending = [])

/-- R107: before the first edge with `rst = 1` no word on `cmd` has an effect the model answers: the step is refused by
name, and so is every run that does not start with `rst`, its last state, its observation and its events alike. A run that
does start with it goes on as from the reset state of the build, whatever values the block's state held at power-up.
Where the mark of it stands is the model's choice (log 5). -/
def Obligations.RunsNotStartedByResetRefused : Prop :=
  (∀ (s : State) (e : Edge) (es : List Edge), s.resetDone = false → e.rst = false →
    step (driven s (e :: es)) = .refused .beforeReset ∧
    afterEdges (e :: es).length (driven s (e :: es)) = .refused .beforeReset ∧
    observed (driven s (e :: es)) = .refused .beforeReset ∧
    edgeEvents (driven s (e :: es)) = .refused .beforeReset ∧
    runEvents (driven s (e :: es)) = .refused .beforeReset) ∧
  (∀ (s : State) (w : Cmd) (es : List Edge), s.reservedSeen = false →
    afterEdges (es.length + 1) (driven s (rstEdge w :: es)) =
      afterEdges es.length (driven (State.resetWith s.accCap) es) ∧
    runEvents (driven s (rstEdge w :: es)) = runEvents (driven (State.resetWith s.accCap) es)) ∧
  (∀ s t : State, step s = .next t → t.resetDone = true ∧ startsWithReset s = true)

/-- With no edge to come nothing happens: the model refuses the step by name (R98, R103; log 1). -/
def Obligations.StepWithoutEdgeRefused : Prop :=
  ∀ s : State, step s = .refused .noEdge ↔ s.pending = []

/-! ## NOP, CLEAR and the reserved op -/

/-- R85: NOP writes the two pulses only. -/
def Obligations.NopEndsPulsesOnly : Prop :=
  ∀ (d : Byte) (s : State), exec (.nop d) s = .next { s with sampleValid := false, frameErr := false }

/-- R86: CLEAR empties the accumulator and ends the pulses, and writes nothing else. -/
def Obligations.ClearEmptiesAccumulator : Prop :=
  ∀ (d : Byte) (s : State), exec (.clear d) s = .next { s with acc := [], sampleValid := false, frameErr := false }

/-- R87, the pseudocode for the hardware: the reserved op writes what NOP writes. That the command itself has this effect
and the refusal R87 asks of a model is the run's, by the record, is the model's choice (log 3). -/
def Obligations.ReservedActsAsNop : Prop :=
  ∀ (d : Byte) (s : State),
    exec (.reserved d) s = .next { s with sampleValid := false, frameErr := false, reservedSeen := true }

/-- R46, R87: a model refuses a run that contains a reserved word, and the record keeps the refusal for the whole run:
neither the state it leaves, nor its observation, nor its events are answered, whatever edges come before and after, `rst`
among them. The record is set by exactly the edges that perform a reserved word. That a word on `cmd` at an edge with
`rst = 1` is none of them is the model's choice (log 12), and where the record stands is too (log 3). A run that does not
start with `rst` is refused for that (RunsNotStartedByResetRefused). -/
def Obligations.RunsWithAReservedWordRefused : Prop :=
  (∀ (s t : State) (e : Edge) (rest : List Edge), s.pending = e :: rest → step s = .next t →
    t.reservedSeen = (s.reservedSeen || (!e.rst && opField e.cmd == 0b11#2))) ∧
  (∀ (s : State) (es : List Edge), startsWithReset (driven s es) = true →
    (s.reservedSeen = true ∧ es ≠ [] ∨ ∃ e, e ∈ es ∧ e.rst = false ∧ opField e.cmd = 0b11#2) →
    afterEdges es.length (driven s es) = .refused .reservedInRun ∧
    observed (driven s es) = .refused .reservedInRun ∧
    edgeEvents (driven s es) = .refused .reservedInRun ∧
    runEvents (driven s es) = .refused .reservedInRun)

/-- R88: CLEAR and `rst` both empty `acc` and clear the pulses; `rst` also zeroes `sample_data` and takes priority over
the word on `cmd`, and CLEAR does neither. `rst` does it in every state, CLEAR once there has been an `rst` (R107). -/
def Obligations.ClearAndResetDiffer : Prop :=
  ∀ (s : State) (e : Edge) (rest : List Edge), s.pending = e :: rest →
    (e.rst = true → ∃ t, step s = .next t ∧ t.acc = [] ∧ t.sampleValid = false ∧ t.frameErr = false ∧
      t.sampleData = 0) ∧
    (s.resetDone = true → e.rst = false → (∃ d, decodeWord e.cmd = .clear d) → ∃ t, step s = .next t ∧ t.acc = [] ∧
      t.sampleValid = false ∧ t.frameErr = false ∧ t.sampleData = s.sampleData)

/-- R37, its clauses on commands: NOP and CLEAR done twice leave what once leaves; PUSH is not idempotent: two PUSHes
of a byte, below the length gate, append it twice. -/
def Obligations.NopAndClearIdempotentPushNot : Prop :=
  (∀ (d d' : Byte) (s t : State), exec (.nop d) s = .next t → exec (.nop d') t = .next t) ∧
  (∀ (d d' : Byte) (s t : State), exec (.clear d) s = .next t → exec (.clear d') t = .next t) ∧
  (∀ (b : Byte) (s : State), s.acc.length < 14 → 16 ≤ s.accCap → ∃ t u,
    exec (.push b) s = .next t ∧ exec (.push b) t = .next u ∧ u.acc = s.acc ++ [b, b])

/-! ## The frame codec -/

/-- R57, the corner cases and example, with the other vectors of spec/95_test_vectors.md section 2.1. -/
def Obligations.ChecksumKnownAnswers : Prop :=
  crcStep 0x0000 0x00 = 0x0000 ∧ crcStep 0xFFFF 0xFF = 0xFF00 ∧ crcStep 0xFFFF 0x00 = 0xE1F0 ∧
  crcStep 0x0000 0x01 = 0x1021 ∧ crcStep 0x8000 0x00 = 0x9188 ∧ crcStep 0x1234 0x56 = 0x3C40 ∧
  checksum [] = 0xFFFF ∧ checksum [0x24, 0x44, 0x43] = 0x2F35 ∧
  checksum [0x31, 0x32, 0x33, 0x34, 0x35, 0x36, 0x37, 0x38, 0x39] = 0x29B1

/-- R59: the prefix law and the affine law of the checksum, for all byte sequences. -/
def Obligations.ChecksumPrefixAndAffineLaws : Prop :=
  (∀ a b : List Byte, checksum (a ++ b) = b.foldl crcStep (checksum a)) ∧
  (∀ x e : List Byte, x.length = e.length →
    checksum (List.zipWith (fun p q => p ^^^ q) x e) =
      checksum x ^^^ checksum e ^^^ checksum (List.replicate x.length 0))

/-- R31: the received checksum of a candidate is big-endian, `candidate[14] * 256 + candidate[15]`. -/
def Obligations.ReceivedChecksumBigEndian : Prop :=
  ∀ (cand : List Byte) (hi lo : Byte), cand[14]? = some hi → cand[15]? = some lo →
    crcRx cand = hi ++ lo ∧ (crcRx cand).toNat = hi.toNat * 256 + lo.toNat

/-- R62: on a candidate that meets its precondition, validate-and-decode answers the 11 bytes `cand[3..14]` when
`Checksum(cand[0..14])` is the received checksum, and a mismatch when it is not; it validates exactly the well-formed
frames. R60: 16 bytes are well-formed exactly when they start with the marker and their checksum agrees. -/
def Obligations.ValidatesExactlyWellFormedFrames : Prop :=
  (∀ cand : List Byte, cand.length = 16 → slice cand 0 3 = [0x24, 0x44, 0x43] →
    (checksum (slice cand 0 14) = crcRx cand →
      validateAndDecode cand = .ok (slice cand 3 14) ∧ (slice cand 3 14).length = 11) ∧
    (checksum (slice cand 0 14) ≠ crcRx cand → validateAndDecode cand = .checksumMismatch) ∧
    (wellFormedFrame cand = true ↔ checksum (slice cand 0 14) = crcRx cand)) ∧
  (∀ (f : List Byte) (hi lo : Byte), f.length = 16 → f[14]? = some hi → f[15]? = some lo →
    (wellFormedFrame f = true ↔ slice f 0 3 = [0x24, 0x44, 0x43] ∧ hi ++ lo = checksum (slice f 0 14)))

/-- R65: where the block forms a candidate, the precondition of validate-and-decode holds, so the fault a model owes
where it is false (R91) is there, and no state and no command ever raises it. -/
def Obligations.CandidateMeetsPrecondition : Prop :=
  (∀ (acc : List Byte) (h : Nat), findMarker acc = some h → 16 ≤ acc.length - h →
    (candidateAt acc h).length = 16 ∧ slice (candidateAt acc h) 0 3 = [0x24, 0x44, 0x43]) ∧
  (∀ cand : List Byte, validateAndDecode cand = .preconditionViolated ↔
    ¬ (cand.length = 16 ∧ slice cand 0 3 = [0x24, 0x44, 0x43])) ∧
  (∀ (i : Instr) (s : State), exec i s ≠ .fault .validatePrecondition)

/-- R32: `sample_data[8i+7:8i] = sample[i] = candidate[3+i]` for `i = 0..10`: of the packed sample, of a candidate's
sample, and of the bus after a PUSH that validates the candidate it finds at `h`. -/
def Obligations.ChannelLanesOfTheBus : Prop :=
  (∀ (p : List Byte) (i : Nat), p.length = 11 → i < 11 → p[i]? = some (channel (pack p) i)) ∧
  (∀ (cand : List Byte) (i : Nat), cand.length = 16 → i < 11 →
    cand[3 + i]? = some (channel (pack (slice cand 3 14)) i)) ∧
  (∀ (b : Byte) (s t : State) (h i : Nat), StateInv s → exec (.push b) s = .next t → t.sampleValid = true →
    ∀ acc, acc = (if s.acc.length = s.accCap then s.acc.drop 1 else s.acc) ++ [b] →
    findMarker acc = some h → i < 11 → acc[h + 3 + i]? = some (channel t.sampleData i))

/-- C5 and spec/95_test_vectors.md section 2.7, made general: changing any one byte of a well-formed frame after its
marker, so any single-bit flip of bytes 3..15, is rejected, every time. -/
def Obligations.AnyOneByteCorruptionRejected : Prop :=
  ∀ (f : List Byte) (k : Nat) (x : Byte), wellFormedFrame f = true → 3 ≤ k → k < 16 → f[k]? ≠ some x →
    validateAndDecode (f.set k x) = .checksumMismatch

/-! ## The marker search, the trim and the pass -/

/-- R71: the search finds the least offset at which the marker's three bytes stand, and none if there is no such
offset. -/
def Obligations.SearchFindsTheFirstMarker : Prop :=
  ∀ acc : List Byte,
    (∀ h : Nat, findMarker acc = some h ↔
      (h + 3 ≤ acc.length ∧ acc[h]? = some 0x24 ∧ acc[h + 1]? = some 0x44 ∧ acc[h + 2]? = some 0x43) ∧
        ∀ i : Nat, i < h → ¬ (acc[i]? = some 0x24 ∧ acc[i + 1]? = some 0x44 ∧ acc[i + 2]? = some 0x43)) ∧
    (findMarker acc = none ↔
      ∀ i : Nat, ¬ (acc[i]? = some 0x24 ∧ acc[i + 1]? = some 0x44 ∧ acc[i + 2]? = some 0x43))

/-- R72: the model's match is exact equality of the marker's 3 bytes, at any place of a sequence; two occurrences never
overlap, so they are at least 3 bytes apart, and the search that goes on behind one finds none nearer. -/
def Obligations.MarkersNeverOverlap : Prop :=
  (∀ (B : List Byte) (i : Nat), startsWithMarker (B.drop i) = true ↔
    B[i]? = some 0x24 ∧ B[i + 1]? = some 0x44 ∧ B[i + 2]? = some 0x43) ∧
  (∀ (B : List Byte) (i j : Nat), startsWithMarker (B.drop i) = true → startsWithMarker (B.drop j) = true →
    i < j → i + 3 ≤ j) ∧
  (∀ (B : List Byte) (i h : Nat), startsWithMarker (B.drop i) = true → findMarkerFrom (i + 1) B = some h → i + 3 ≤ h)

/-- R70: with fewer than 16 bytes the pass stops; it does not search and does not trim. -/
def Obligations.LengthGateStopsThePass : Prop :=
  ∀ s : State, s.acc.length < 16 → pass s = .next s

/-- R73: with no marker among 16 bytes or more, the pass keeps everything from the last `0x24`, or nothing if there is
none, and stops. -/
def Obligations.TrimKeepsFromTheLastDollar : Prop :=
  ∀ s : State, 16 ≤ s.acc.length → findMarker s.acc = none →
    (∀ q : Nat, s.acc[q]? = some 0x24 → (∀ i : Nat, q < i → s.acc[i]? ≠ some 0x24) →
      pass s = .next { s with acc := s.acc.drop q }) ∧
    ((∀ i : Nat, s.acc[i]? ≠ some 0x24) → pass s = .next { s with acc := [] })

/-- R74: with a marker and fewer than 16 bytes from it, the pass stops and removes nothing. -/
def Obligations.WaitRemovesNothing : Prop :=
  ∀ (s : State) (h : Nat), findMarker s.acc = some h → s.acc.length - h < 16 → pass s = .next s

/-- R76, R77, R78, R79: a complete candidate raises its event, the bytes up to its end are consumed whether or not it
validated, and the pass goes on from the top with what is left. -/
def Obligations.CandidateConsumedEitherWay : Prop :=
  ∀ (s : State) (h : Nat), findMarker s.acc = some h → 16 ≤ s.acc.length - h →
    (∀ p, validateAndDecode (candidateAt s.acc h) = .ok p →
      pass s = pass { s with acc := s.acc.drop (h + 16), sampleValid := true, sampleData := pack p }) ∧
    (validateAndDecode (candidateAt s.acc h) = .checksumMismatch →
      pass s = pass { s with acc := s.acc.drop (h + 16), frameErr := true })

/-- R79: a pass runs at most `floor(len(acc) / 16) + 1` iterations: allowing it more changes nothing. -/
def Obligations.PassIterationsBounded : Prop :=
  ∀ (s : State) (n : Nat), s.acc.length / 16 + 1 ≤ n → passWithin n s = pass s

/-! ## PUSH -/

/-- R68, R69: PUSH first ends the pulses, drops the oldest byte exactly when the accumulator is full, appends its byte,
and runs the pass on that. -/
def Obligations.PushMakesRoomAppendsAndPasses : Prop :=
  ∀ (b : Byte) (s : State),
    (s.acc.length = s.accCap → exec (.push b) s =
      pass { s with acc := s.acc.drop 1 ++ [b], sampleValid := false, frameErr := false }) ∧
    (s.acc.length ≠ s.accCap → exec (.push b) s =
      pass { s with acc := s.acc ++ [b], sampleValid := false, frameErr := false })

/-- PUSH completes from every state, and its frame: the build parameter, the input to come and the records of a
reserved word and of a reset stay; `sample_data` changes only when `sample_valid` is raised; the accumulator that is left
is the newest part of what was held with the byte appended, and holds no 16 bytes from a marker. -/
def Obligations.PushCompletesWithItsFrame : Prop :=
  ∀ (b : Byte) (s : State), ∃ t, exec (.push b) s = .next t ∧
    t.accCap = s.accCap ∧ t.pending = s.pending ∧ t.reservedSeen = s.reservedSeen ∧
    t.resetDone = s.resetDone ∧ (t.sampleValid = false → t.sampleData = s.sampleData) ∧
    t.acc <:+ s.acc ++ [b] ∧ (∀ h, findMarker t.acc = some h → t.acc.length - h < 16)

/-- R81: from a reachable state a PUSH has exactly one of five outcomes, told apart by what the accumulator holds after
the drop and the append; each gives the whole next state. At most one pulse is raised, an extraction leaves the
accumulator empty, and the invariant holds again. -/
def Obligations.PushHasOneOfFiveOutcomes : Prop :=
  ∀ (b : Byte) (s : State), StateInv s →
    ∀ acc, acc = (if s.acc.length = s.accCap then s.acc.drop 1 else s.acc) ++ [b] →
    ∃ t, exec (.push b) s = .next t ∧ StateInv t ∧ ¬ (t.sampleValid = true ∧ t.frameErr = true) ∧
      (acc.length < 16 → t = { s with acc := acc, sampleValid := false, frameErr := false }) ∧
      (16 ≤ acc.length → findMarker acc = none →
        t = { s with acc := trimmed acc, sampleValid := false, frameErr := false }) ∧
      (16 ≤ acc.length → ∀ h, findMarker acc = some h → acc.length - h ≤ 15 →
        t = { s with acc := acc, sampleValid := false, frameErr := false }) ∧
      (16 ≤ acc.length → ∀ h, findMarker acc = some h → 15 < acc.length - h → acc.length - h = 16 ∧
        (∀ p, validateAndDecode (candidateAt acc h) = .ok p →
          t = { s with acc := [], sampleValid := true, frameErr := false, sampleData := pack p }) ∧
        (validateAndDecode (candidateAt acc h) = .checksumMismatch →
          t = { s with acc := [], sampleValid := false, frameErr := true }) ∧
        validateAndDecode (candidateAt acc h) ≠ .preconditionViolated)

/-- R83: the source's signals, their classes and the outcomes they name. None of them stops the block: from a reachable
state the PUSH completes. Three are seen on `acc_level` only, `ChecksumMismatch` as `frame_err = 1`, and the outcome
with no signal as `sample_valid = 1`. -/
def Obligations.SourceSignalsNameTheOutcomes : Prop :=
  (∀ o : PushOutcome, (signalOf o).map (fun g => (g, classOf g)) =
    if o = .insufficient then some (.insufficientData, .transientIncomplete)
    else if o = .waiting then some (.frameNotYetComplete, .transientIncomplete)
    else if o = .trimmed then some (.noSyncFound, .desynchronized)
    else if o = .rejected then some (.checksumMismatch, .integrityFailure)
    else none) ∧
  (∀ (b : Byte) (s : State), StateInv s →
    ∀ acc, acc = (if s.acc.length = s.accCap then s.acc.drop 1 else s.acc) ++ [b] →
    ∃ t, exec (.push b) s = .next t ∧
      (pushOutcome b s = .insufficient ↔ acc.length < 16) ∧
      (pushOutcome b s = .trimmed ↔ 16 ≤ acc.length ∧ findMarker acc = none) ∧
      (pushOutcome b s = .waiting ↔ 16 ≤ acc.length ∧ ∃ h, findMarker acc = some h ∧ acc.length - h ≤ 15) ∧
      (pushOutcome b s = .rejected ↔ t.frameErr = true) ∧
      (pushOutcome b s = .validated ↔ t.sampleValid = true) ∧
      (signalOf (pushOutcome b s) ≠ none → t.sampleData = s.sampleData))

/-! ## Whole-machine rules -/

/-- R18, R19: from a reachable state `sample_valid` is 1 after a PUSH exactly when its pass validates a candidate, and
`frame_err` exactly when it rejects one, whatever they were before; both are 0 after every other command, after an edge
with `rst = 1` and at reset, for every build. -/
def Obligations.PulsesRaisedOnlyByPush : Prop :=
  (∀ (s t : State) (e : Edge) (rest : List Edge), s.pending = e :: rest → step s = .next t →
    (t.sampleValid = true ∨ t.frameErr = true) → e.rst = false ∧ ∃ b, decodeWord e.cmd = .push b) ∧
  (∀ (s t : State) (b : Byte), StateInv s → exec (.push b) s = .next t →
    ∀ acc, acc = (if s.acc.length = s.accCap then s.acc.drop 1 else s.acc) ++ [b] →
    (t.sampleValid = true ↔ ∃ h p, findMarker acc = some h ∧ 16 ≤ acc.length - h ∧
      validateAndDecode (candidateAt acc h) = .ok p) ∧
    (t.frameErr = true ↔ ∃ h, findMarker acc = some h ∧ 16 ≤ acc.length - h ∧
      validateAndDecode (candidateAt acc h) = .checksumMismatch)) ∧
  (∀ c : Nat, (State.resetWith c).sampleValid = false ∧ (State.resetWith c).frameErr = false)

/-- R89: only a validating PUSH and `rst` write `sample_data`, and after `rst` it equals the last decoded sample, or
zero if none has been decoded. -/
def Obligations.SampleDataHoldsTheLastSample : Prop :=
  (∀ (s t : State) (e : Edge) (rest : List Edge), s.pending = e :: rest → step s = .next t →
    t.sampleData ≠ s.sampleData → e.rst = true ∨ ((∃ b, decodeWord e.cmd = .push b) ∧ t.sampleValid = true)) ∧
  (∀ (c : Nat) (es : List Edge), 16 ≤ c → (∀ e, e ∈ es → e.rst = false ∧ edgeConforming e = true) →
    ∃ t evs, afterEdges es.length (driven (State.resetWith c) es) = .next t ∧
      runEvents (driven (State.resetWith c) es) = .next evs ∧
      t.sampleData = (evs.filterMap decodedSample).getLast?.getD 0)

/-- R28 as an invariant of every step, from every state that meets it and with any input (log 2: the legal capacity of
R7 stands in the invariant). -/
def Obligations.ReachableFormKeptByEveryStep : Prop :=
  ∀ s t : State, StateInv s → step s = .next t → StateInv t

/-- R28 holds at reset, for every legal build (R7). -/
def Obligations.ReachableFormAtReset : Prop :=
  StateInv State.reset ∧ ∀ c : Nat, 16 ≤ c → StateInv (State.resetWith c)

/-- R28: after `rst` and any sequence of commands (NOP, PUSH and CLEAR, R2), with further resets or without, `acc`
satisfies `Inv(acc)`, written out. For a reserved word see ReachableFormKeptByEveryStep: a run with one is refused (R87),
and its edges keep the form all the same. -/
def Obligations.ReachableFormInEveryRun : Prop :=
  ∀ (c : Nat) (es : List Edge), 16 ≤ c → (∀ e, e ∈ es → edgeConforming e = true) →
    ∃ t, afterEdges es.length (driven (State.resetWith c) es) = .next t ∧
    t.acc.length ≤ c ∧
    (16 ≤ t.acc.length → ∀ h, findMarker t.acc = some h → t.acc.length - h ≤ 15) ∧
    (16 ≤ t.acc.length → findMarker t.acc = none →
      t.acc[0]? = some 0x24 ∧ ∀ i, 1 ≤ i → i < t.acc.length → t.acc[i]? ≠ some 0x24)

/-- R93, R81: the two pulses are never 1 together, after any edge from a reachable state, and in the observation of every
conforming run from reset, which has one entry an edge. -/
def Obligations.PulsesNeverTogether : Prop :=
  (∀ s t : State, StateInv s → step s = .next t → PulsesExclusive t) ∧
  (∀ (c : Nat) (es : List Edge), 16 ≤ c → (∀ e, e ∈ es → edgeConforming e = true) →
    ∃ ps, observed (driven (State.resetWith c) es) = .next ps ∧ ps.length = es.length ∧
      ∀ p, p ∈ ps → ¬ (p.sampleValid = true ∧ p.frameErr = true))

/-- A conforming run stays conforming, and a run that has held a reserved word never counts as conforming again
(R46, R87, R98, R107, R108; where the records stand is the model's choice, logs 3 and 5, and so are the word on `cmd`
under `rst`, log 12, and an input of no edges before it, log 13). -/
def Obligations.ConformanceOfARunKept : Prop :=
  (∀ s t : State, Conforming s → step s = .next t → Conforming t) ∧
  (∀ s t : State, s.reservedSeen = true → step s = .next t → t.reservedSeen = true)

/-- R8, R21: `acc_level` is `len(acc)` in every reachable state, 0 at reset of every build, on a port of `ceil(log2(ACC_CAP + 1))`
bits, which is 6 for the default. -/
def Obligations.LevelPortShowsTheLength : Prop :=
  (∀ s : State, StateInv s → (accLevel s).toNat = s.acc.length ∧ (ports s).accLevel = s.acc.length) ∧
  (∀ c : Nat, (accLevel (State.resetWith c)).toNat = 0) ∧
  (∀ c : Nat, 16 ≤ c → accLevelW c = Nat.clog 2 (c + 1)) ∧ accLevelW 32 = 6

/-! ## Streams -/

/-- R82: for a byte stream pushed after `rst` with no CLEAR, NOPs between its PUSHes changing nothing, the block of
every capacity raises exactly the events of `Extract`; event `k` at the PUSH of byte `B[h_k + 15]`; and so do the
source's algorithm on any split into chunks, and the byte-serial algorithm of every capacity, under either reading of
decision D9. -/
def Obligations.StreamEventsAreExtract : Prop :=
  (∀ (c : Nat) (es : List Edge), 16 ≤ c → (∀ e, e ∈ es → isPushOrNop e = true) →
    runEvents (driven (State.resetWith c) es) = .next (extract (pushedBytes es))) ∧
  (∀ (c : Nat) (B : List Byte), 16 ≤ c →
    edgeEvents (driven (State.resetWith c) (chunkEdges B)) =
      .next ((List.range B.length).map
        (fun n => ((extractAt B).filter (fun he => he.1 + 15 == n)).map Prod.snd))) ∧
  (∀ (keep : Bool) (chunks : List (List Byte)), chunkEvents ⟨none, keep⟩ [] chunks = extract chunks.flatten) ∧
  (∀ (c : Nat) (keep : Bool) (B : List Byte), 16 ≤ c →
    chunkEvents ⟨some c, keep⟩ [] (B.map (fun b => [b])) = extract B)

/-- R84: a chunk written as its PUSH words raises the same events, in the same order, as the source's call, call by
call, under either reading of decision D9 (R82). -/
def Obligations.ChunkCallsRaiseTheSourcesEvents : Prop :=
  ∀ (c : Nat) (keep : Bool) (chunks : List (List Byte)), 16 ≤ c →
    blockCallEvents (State.resetWith c) chunks = .next (callEvents ⟨none, keep⟩ [] chunks)

/-- CLEAR, in a run that has had its `rst`, and `rst`, from any state, start the stream afresh (R86, R88, R107, R109): in
any legal build, whatever was held, the events of the bytes that follow are those of these bytes alone. A run that has
held a reserved word stays refused (R87). -/
def Obligations.ClearAndResetStartAfresh : Prop :=
  ∀ (s : State) (d : Byte) (w : Cmd) (B : List Byte), 16 ≤ s.accCap → s.reservedSeen = false →
    (s.resetDone = true → runEvents (driven s (commandEdge (.clear d) :: chunkEdges B)) = .next (extract B)) ∧
    runEvents (driven s (rstEdge w :: chunkEdges B)) = .next (extract B)

/-- The source's round trip (spec/95_test_vectors.md S3, S7) and R115: well-formed frames back to back, whatever their
payloads, are decoded each once, in order and unchanged, one pulse every 16 edges. -/
def Obligations.BackToBackFramesRoundTrip : Prop :=
  ∀ (c : Nat) (ps : List (List Byte)), 16 ≤ c → (∀ p, p ∈ ps → p.length = 11) →
    edgeEvents (driven (State.resetWith c) (chunkEdges (ps.flatMap frameOf))) =
      .next (ps.flatMap (fun p => List.replicate 15 [] ++ [[Event.sampleDecoded (pack p)]]))

/-- The source's resynchronisation (spec/95_test_vectors.md S6): bytes that hold no marker, then a well-formed frame,
give exactly one event, that frame's sample. -/
def Obligations.ResynchronisesAfterGarbage : Prop :=
  ∀ (c : Nat) (junk p : List Byte), 16 ≤ c → p.length = 11 → findMarker junk = none →
    runEvents (driven (State.resetWith c) (chunkEdges (junk ++ frameOf p))) = .next [Event.sampleDecoded (pack p)]

/-- R80: after a rejected candidate the search resumes past the whole candidate: the events of what follows are those
of the bytes after it, whatever markers or frames began inside it. -/
def Obligations.RejectionSkipsTheWholeCandidate : Prop :=
  ∀ (c : Nat) (cand B : List Byte), 16 ≤ c → cand.length = 16 → slice cand 0 3 = [0x24, 0x44, 0x43] →
    wellFormedFrame cand = false →
    ∃ evs, runEvents (driven (State.resetWith c) (chunkEdges B)) = .next evs ∧
      runEvents (driven (State.resetWith c) (chunkEdges (cand ++ B))) = .next (Event.checksumMismatch :: evs)

/-! ## The assembler -/

/-- R53, R54: `FRAME` and `FRAMEX` expand to 16 PUSH words: the marker, the payload, and the checksum high byte first,
computed or given. A payload operand is any `<imm8>`, a number or a character (R50). The frame `FRAME` writes is
well-formed and holds its payload. -/
def Obligations.FramePseudoInstructions : Prop :=
  ∀ p : List Imm, p.length = 11 → (∀ b, b ∈ p → b.wf = true) →
    ∀ bs : List Byte, bs = p.map (fun b => BitVec.ofNat 8 (immValue b)) →
    (∀ k : Crc, k = checksum ([0x24, 0x44, 0x43] ++ bs) →
      assemble (.frame p) =
        .ok (pushWords ([0x24, 0x44, 0x43] ++ bs ++ [k.extractLsb' 8 8, k.extractLsb' 0 8]))) ∧
    (∀ k : Nat, k < 65536 →
      assemble (.framex p k) =
        .ok (pushWords ([0x24, 0x44, 0x43] ++ bs ++ [BitVec.ofNat 8 (k / 256), BitVec.ofNat 8 k]))) ∧
    wellFormedFrame (frameOf bs) = true ∧ slice (frameOf bs) 3 14 = bs ∧ (pushWords (frameOf bs)).length = 16

/-- R50, R51, R52, R54: the words of `PUSH` on every number and every character, of `PUSHB`, of `PUSHS` on every text and
of `IDLE`; the operands that are assembly errors; and that exactly the reserved words are warned of. That `.word` may
write a word below `0x300`, and that a character with no ASCII code is an error, are the model's choices (log 9). -/
def Obligations.AssemblerLines : Prop :=
  (∀ n : Nat, n < 256 → assemble (.push (.num n)) = .ok [0x100 ||| BitVec.ofNat 10 n]) ∧
  (∀ n : Nat, 256 ≤ n → assemble (.push (.num n)) = .error .imm8OutOfRange) ∧
  (∀ c : Char, c.toNat < 128 → assemble (.push (.chr c)) = .ok [0x100 ||| BitVec.ofNat 10 c.toNat]) ∧
  (∀ c : Char, 128 ≤ c.toNat → assemble (.push (.chr c)) = .error .imm8OutOfRange) ∧
  assemble (.push (.chr '$')) = .ok [0x124] ∧
  (∀ bs : List Imm, bs ≠ [] → (∀ b, b ∈ bs → b.wf = true) →
    assemble (.pushb bs) = .ok (bs.map (fun b => 0x100 ||| BitVec.ofNat 10 (immValue b)))) ∧
  (∀ t : List Char, (∀ c, c ∈ t → c.toNat < 128) →
    assemble (.pushs t) = .ok (t.map (fun c => 0x100 ||| BitVec.ofNat 10 c.toNat))) ∧
  assemble (.pushs ['$', 'D', 'C']) = .ok [0x124, 0x144, 0x143] ∧
  (∀ n : Nat, assemble (.idle n) = .ok (List.replicate n 0x000)) ∧
  (∀ w : Nat, w < 1024 → assemble (.word w) = .ok [BitVec.ofNat 10 w] ∧ (warns (.word w) = true ↔ 0x300 ≤ w))
end

