-- ==== Sys2Proof/Laws/Codec.lean ====
section
/-! SUPPORT. The checksum is linear over XOR and loses no information (R57 to R59), and what validate-and-decode
answers (R62). -/

namespace Sys2Proof.Machine

theorem zext16_xor (a b : Byte) : zext16 (a ^^^ b) = zext16 a ^^^ zext16 b := by
  unfold zext16
  exact BitVec.setWidth_xor

theorem crcRound_xor (a b : Crc) : crcRound (a ^^^ b) = crcRound a ^^^ crcRound b := by
  unfold crcRound
  rw [BitVec.msb_xor]
  cases a.msb <;> cases b.msb <;> simp [BitVec.shiftLeft_xor_distrib] <;> ac_nf
  simp

theorem crcRounds_xor (n : Nat) (a b : Crc) : crcRounds n (a ^^^ b) = crcRounds n a ^^^ crcRounds n b := by
  induction n generalizing a b with
  | zero => rfl
  | succ n ih => simp only [crcRounds, crcRound_xor, ih]

/-- A step is linear in the register and the byte together. -/
theorem crcStep_xor (a b : Crc) (x y : Byte) : crcStep (a ^^^ b) (x ^^^ y) = crcStep a x ^^^ crcStep b y := by
  unfold crcStep
  rw [← crcRounds_xor, zext16_xor, BitVec.shiftLeft_xor_distrib]
  congr 1
  ac_rfl

/-- Bit 0 of the polynomial is set, so an iteration sends only zero to zero. -/
theorem crcRound_eq_zero {a : Crc} (h : crcRound a = 0) : a = 0 := by
  have ha := a.isLt
  unfold crcRound at h
  split at h
  · have := congrArg (BitVec.getLsbD · 0) h
    simp [Config.crcPoly] at this
  · rename_i hm
    have h2 := congrArg BitVec.toNat h
    have hm' : a.toNat < 2 ^ 15 := by
      by_contra hc
      exact hm (by rw [BitVec.msb_eq_decide]; simpa using hc)
    rw [BitVec.toNat_shiftLeft] at h2
    simp only [Nat.shiftLeft_eq, show (0 : Crc).toNat = 0 from rfl] at h2
    apply BitVec.eq_of_toNat_eq
    simp only [show (0 : Crc).toNat = 0 from rfl]
    omega

theorem crcRounds_eq_zero {n : Nat} {a : Crc} (h : crcRounds n a = 0) : a = 0 := by
  induction n generalizing a with
  | zero => exact h
  | succ n ih => exact crcRound_eq_zero (ih h)

theorem xor_eq_zero {n : Nat} {a b : BitVec n} (h : a ^^^ b = 0) : a = b := BitVec.xor_eq_zero_iff.mp h

theorem crcRounds_injective {n : Nat} {a b : Crc} (h : crcRounds n a = crcRounds n b) : a = b :=
  xor_eq_zero (crcRounds_eq_zero (n := n) (by rw [crcRounds_xor, h]; exact BitVec.xor_self))

/-- A step forgets nothing of the register. -/
theorem crcStep_register_injective {a b : Crc} {x : Byte} (h : crcStep a x = crcStep b x) : a = b := by
  have := crcRounds_injective h
  simpa using this

theorem zext16_shift_injective {x y : Byte} (h : zext16 x <<< 8 = zext16 y <<< 8) : x = y := by
  have h2 := congrArg BitVec.toNat h
  have hx := x.isLt
  have hy := y.isLt
  simp only [zext16, BitVec.toNat_shiftLeft, Nat.shiftLeft_eq, BitVec.truncate_eq_setWidth, BitVec.toNat_setWidth] at h2
  apply BitVec.eq_of_toNat_eq
  omega

/-- A step forgets nothing of the byte. -/
theorem crcStep_byte_injective {a : Crc} {x y : Byte} (h : crcStep a x = crcStep a y) : x = y := by
  have := crcRounds_injective h
  exact zext16_shift_injective (by simpa using this)

theorem foldl_crcStep_injective {bs : List Byte} {a b : Crc} (h : bs.foldl crcStep a = bs.foldl crcStep b) : a = b := by
  induction bs generalizing a b with
  | nil => exact h
  | cons x xs ih => exact crcStep_register_injective (ih h)

/-- The fold is linear in the register and the bytes together. -/
theorem foldl_crcStep_xor (x y : List Byte) (h : x.length = y.length) (a b : Crc) :
    (List.zipWith (fun p q => p ^^^ q) x y).foldl crcStep (a ^^^ b) = x.foldl crcStep a ^^^ y.foldl crcStep b := by
  induction x generalizing y a b with
  | nil => cases y with
    | nil => rfl
    | cons _ _ => simp at h
  | cons p ps ih =>
    cases y with
    | nil => simp at h
    | cons q qs =>
      simp only [List.zipWith_cons_cons, List.foldl_cons, crcStep_xor]
      exact ih qs (by simpa using h) _ _

/-- What validate-and-decode answers where its precondition holds (R62). -/
theorem validateAndDecode_of_precondition {cand : List Byte} (hl : cand.length = 16)
    (hm : startsWithMarker cand = true) :
    validateAndDecode cand =
      if crcCalc cand = crcRx cand then .ok (payloadOf cand) else .checksumMismatch := by
  simp [validateAndDecode, hl, hm]

/-- Where the precondition fails, and only there, the model's fault is due (R91). -/
theorem validateAndDecode_violated_iff {cand : List Byte} :
    validateAndDecode cand = .preconditionViolated ↔ ¬ (cand.length = 16 ∧ startsWithMarker cand = true) := by
  unfold validateAndDecode
  by_cases h : cand.length = Config.frameLen ∧ startsWithMarker cand = true
  · rw [if_pos h]
    simp only [Config.frameLen] at h
    split <;> simp [h]
  · rw [if_neg h]
    simpa using h

end Sys2Proof.Machine
end

