-- ==== Sys2Proof/Laws/Decode.lean ====
section
/-! SUPPORT. The two fields of a word, and the word of two fields (R42). -/

namespace Sys2Proof

theorem extractLsb'_append_high {n m : Nat} (o : BitVec n) (d : BitVec m) : (o ++ d).extractLsb' m n = o := by
  ext i hi
  simp [BitVec.getLsbD_append, BitVec.getLsbD_eq_getElem hi]

theorem extractLsb'_append_low {n m : Nat} (o : BitVec n) (d : BitVec m) : (o ++ d).extractLsb' 0 m = d := by
  ext i hi
  simp [BitVec.getLsbD_append, hi]

theorem append_of_extractLsb' {n m : Nat} (w : BitVec (n + m)) : w.extractLsb' m n ++ w.extractLsb' 0 m = w := by
  ext i hi
  rw [BitVec.getElem_append]
  split
  · simp [BitVec.getLsbD_eq_getElem hi]
  · simp only [BitVec.getElem_extractLsb', show m + (i - m) = i by omega, BitVec.getLsbD_eq_getElem hi]

theorem opField_encode (i : Instr) : opField (encode i) = opOf i := extractLsb'_append_high (opOf i) i.data

theorem dataField_encode (i : Instr) : dataField (encode i) = i.data := extractLsb'_append_low (opOf i) i.data

/-- A word is its two fields. -/
theorem append_of_fields (w : Cmd) : (opField w ++ dataField w : BitVec (2 + 8)) = w :=
  append_of_extractLsb' (n := 2) (m := 8) w

end Sys2Proof
end

