-- ==== Sys2Proof/Laws/Search.lean ====
section
/-! SUPPORT. The marker search (R71, R72) and the trim (R73) on byte sequences, and what a removed front cannot change
about a later search (R82). -/

namespace Sys2Proof.Machine

/-- The marker stands at the front exactly when the three bytes do. -/
theorem startsWithMarker_iff (a : List Byte) : startsWithMarker a = true ↔ ∃ t, a = Config.marker ++ t := by
  unfold startsWithMarker
  simp only [Config.markerLen, beq_iff_eq]
  constructor
  · intro h
    exact ⟨a.drop 3, by rw [← h, List.take_append_drop]⟩
  · rintro ⟨t, rfl⟩
    rfl

theorem startsWithMarker_append_right {a b : List Byte} (h : startsWithMarker a = true) :
    startsWithMarker (a ++ b) = true := by
  obtain ⟨t, rfl⟩ := (startsWithMarker_iff a).mp h
  exact (startsWithMarker_iff _).mpr ⟨t ++ b, by simp⟩

/-- With three bytes in hand, later bytes do not decide whether a marker starts here. -/
theorem startsWithMarker_append_of_length {a : List Byte} (h : 3 ≤ a.length) (b : List Byte) :
    startsWithMarker (a ++ b) = startsWithMarker a := by
  unfold startsWithMarker
  simp only [Config.markerLen]
  rw [List.take_append_of_le_length h]

/-- A marker starts with `'$'`. -/
theorem startsWithMarker_head {b : Byte} {t : List Byte} (h : startsWithMarker (b :: t) = true) :
    b = Config.dollar := by
  obtain ⟨u, hu⟩ := (startsWithMarker_iff _).mp h
  simp only [Config.marker, List.cons_append] at hu
  exact (List.cons.inj hu).1

theorem startsWithMarker_length {a : List Byte} (h : startsWithMarker a = true) : 3 ≤ a.length := by
  obtain ⟨t, rfl⟩ := (startsWithMarker_iff a).mp h
  simp [Config.marker]

theorem findMarker_cons (b : Byte) (t : List Byte) :
    findMarker (b :: t) = if startsWithMarker (b :: t) then some 0 else (findMarker t).map (· + 1) := rfl

/-- Everything a found offset says: the marker stands there, and nowhere before (R71). -/
theorem findMarker_eq_some_iff {a : List Byte} {h : Nat} :
    findMarker a = some h ↔
      startsWithMarker (a.drop h) = true ∧ ∀ i, i < h → startsWithMarker (a.drop i) = false := by
  induction a generalizing h with
  | nil => simp [findMarker, startsWithMarker, Config.marker]
  | cons b t ih =>
    rw [findMarker_cons]
    by_cases hb : startsWithMarker (b :: t) = true
    · simp only [hb, if_true, Option.some.injEq]
      constructor
      · rintro rfl
        exact ⟨hb, by omega⟩
      · rintro ⟨_, h2⟩
        by_contra hc
        have := h2 0 (by omega)
        simp [hb] at this
    · simp only [Bool.not_eq_true] at hb
      simp only [hb, Bool.false_eq_true, if_false, Option.map_eq_some_iff]
      constructor
      · rintro ⟨k, hk, rfl⟩
        obtain ⟨h1, h2⟩ := ih.mp hk
        refine ⟨h1, fun i hi => ?_⟩
        cases i with
        | zero => exact hb
        | succ i => exact h2 i (by omega)
      · rintro ⟨h1, h2⟩
        cases h with
        | zero => simp [hb] at h1
        | succ k => exact ⟨k, ih.mpr ⟨h1, fun i hi => h2 (i + 1) (by omega)⟩, rfl⟩

/-- Nothing found: no marker stands anywhere (R71). -/
theorem findMarker_eq_none_iff {a : List Byte} :
    findMarker a = none ↔ ∀ i, startsWithMarker (a.drop i) = false := by
  induction a with
  | nil => simp [findMarker, startsWithMarker, Config.marker]
  | cons b t ih =>
    rw [findMarker_cons]
    by_cases hb : startsWithMarker (b :: t) = true
    · simp only [hb, if_true, reduceCtorEq, false_iff, not_forall]
      exact ⟨0, by simp [hb]⟩
    · simp only [Bool.not_eq_true] at hb
      simp only [hb, Bool.false_eq_true, if_false, Option.map_eq_none_iff, ih]
      constructor
      · intro h i
        cases i with
        | zero => exact hb
        | succ i => exact h i
      · intro h i
        exact h (i + 1)

/-- A found marker lies inside the sequence. -/
theorem findMarker_add_three_le {a : List Byte} {h : Nat} (hf : findMarker a = some h) : h + 3 ≤ a.length := by
  have := startsWithMarker_length (findMarker_eq_some_iff.mp hf).1
  rw [List.length_drop] at this
  omega

/-- Later bytes do not move a found marker. -/
theorem findMarker_append_of_some {a : List Byte} {h : Nat} (hf : findMarker a = some h) (b : List Byte) :
    findMarker (a ++ b) = some h := by
  have hl := findMarker_add_three_le hf
  rw [findMarker_eq_some_iff] at hf ⊢
  refine ⟨?_, fun i hi => ?_⟩
  · rw [List.drop_append_of_le_length (by omega)]
    exact startsWithMarker_append_right hf.1
  · rw [List.drop_append_of_le_length (by omega),
      startsWithMarker_append_of_length (by rw [List.length_drop]; omega)]
    exact hf.2 i hi

/-- A front in which no marker starts can be removed: the search finds the same marker, that much nearer. -/
theorem findMarker_drop {a : List Byte} {n : Nat} (hn : n ≤ a.length)
    (hno : ∀ i, i < n → startsWithMarker (a.drop i) = false) :
    findMarker a = (findMarker (a.drop n)).map (· + n) := by
  induction n generalizing a with
  | zero => simp
  | succ n ih =>
    cases a with
    | nil => simp at hn
    | cons b t =>
      have h0 := hno 0 (by omega)
      rw [List.drop_zero] at h0
      rw [findMarker_cons, h0, List.drop_succ_cons,
        ih (by simpa using hn) (fun i hi => hno (i + 1) (by omega))]
      simp only [Bool.false_eq_true, if_false, Option.map_map]
      congr 1

/-- A suffix of a sequence that holds no marker holds none. -/
theorem findMarker_drop_none {a : List Byte} (h : findMarker a = none) (n : Nat) : findMarker (a.drop n) = none := by
  rw [findMarker_eq_none_iff] at h ⊢
  intro i
  rw [List.drop_drop]
  exact h _

theorem lastDollar_cons (b : Byte) (t : List Byte) :
    lastDollar (b :: t) = match lastDollar t with
      | some q => some (q + 1)
      | none => if b = Config.dollar then some 0 else none := rfl

/-- Nothing found: no `'$'` is held. -/
theorem lastDollar_eq_none_iff {a : List Byte} : lastDollar a = none ↔ Config.dollar ∉ a := by
  induction a with
  | nil => simp [lastDollar]
  | cons b t ih =>
    rw [lastDollar_cons]
    cases h : lastDollar t with
    | some q =>
      have : Config.dollar ∈ t := by
        by_contra hc
        rw [ih.mpr hc] at h
        exact absurd h (by simp)
      simp [this]
    | none =>
      have hn := ih.mp h
      by_cases hb : b = Config.dollar
      · simp [hb]
      · simp [hb, hn, Ne.symm hb]

/-- Everything the last `'$'` says: it stands there, and nowhere after (R73). -/
theorem lastDollar_eq_some_iff {a : List Byte} {q : Nat} :
    lastDollar a = some q ↔ a[q]? = some Config.dollar ∧ Config.dollar ∉ a.drop (q + 1) := by
  induction a generalizing q with
  | nil => simp [lastDollar]
  | cons b t ih =>
    rw [lastDollar_cons]
    cases h : lastDollar t with
    | some k =>
      have hk := ih.mp h
      simp only [Option.some.injEq, List.drop_succ_cons]
      constructor
      · rintro rfl
        exact ⟨by simpa using hk.1, hk.2⟩
      · rintro ⟨h1, h2⟩
        cases q with
        | zero =>
          exact absurd (List.mem_of_getElem? hk.1) (by simpa using h2)
        | succ q =>
          have := ih.mpr ⟨by simpa using h1, h2⟩
          rw [h] at this
          simpa using this
    | none =>
      have hn := lastDollar_eq_none_iff.mp h
      by_cases hb : b = Config.dollar
      · simp only [hb, if_true, Option.some.injEq, List.drop_succ_cons]
        constructor
        · rintro rfl
          exact ⟨rfl, by simpa using hn⟩
        · rintro ⟨h1, h2⟩
          cases q with
          | zero => rfl
          | succ q =>
            rw [List.getElem?_cons_succ] at h1
            exact absurd (List.mem_of_getElem? h1) hn
      · simp only [hb, if_false, reduceCtorEq, List.drop_succ_cons, false_iff, not_and]
        intro h1
        cases q with
        | zero => simp at h1; exact absurd h1 hb
        | succ q =>
          rw [List.getElem?_cons_succ] at h1
          exact absurd (List.mem_of_getElem? h1) hn

theorem lastDollar_lt {a : List Byte} {q : Nat} (h : lastDollar a = some q) : q < a.length := by
  have := (lastDollar_eq_some_iff.mp h).1
  exact (List.getElem?_eq_some_iff.mp this).1

/-- What a trim keeps is the front cut off: from the last `'$'`, or everything. -/
theorem trimmed_eq_drop (a : List Byte) : ∃ n, n ≤ a.length ∧ trimmed a = a.drop n := by
  unfold trimmed
  cases h : lastDollar a with
  | some q => exact ⟨q, (lastDollar_lt h).le, rfl⟩
  | none => exact ⟨a.length, le_refl _, by simp⟩

/-- In a sequence with no `'$'` no marker starts, whatever follows it. -/
theorem startsWithMarker_drop_of_no_dollar {a b : List Byte} (h : Config.dollar ∉ a) {i : Nat} (hi : i < a.length) :
    startsWithMarker ((a ++ b).drop i) = false := by
  rw [← Bool.not_eq_true]
  intro hc
  rw [List.drop_append_of_le_length hi.le, List.drop_eq_getElem_cons hi, List.cons_append] at hc
  exact h (startsWithMarker_head hc ▸ List.getElem_mem hi)

/-- Where a sequence holds no marker, none will start before its last `'$'`, nor anywhere in it if it has no `'$'`,
whatever bytes come later (R73, R82). -/
theorem no_marker_before_last_dollar {a : List Byte} (h : findMarker a = none) (b : List Byte) {q : Nat}
    (hq : lastDollar a = some q) {i : Nat} (hi : i < q) : startsWithMarker ((a ++ b).drop i) = false := by
  have hlt := lastDollar_lt hq
  have hdol := (lastDollar_eq_some_iff.mp hq).1
  have hnone := findMarker_eq_none_iff.mp h
  rw [List.drop_append_of_le_length (by omega)]
  by_cases h3 : 3 ≤ (a.drop i).length
  · rw [startsWithMarker_append_of_length h3]
    exact hnone i
  · rw [List.length_drop] at h3
    rw [← Bool.not_eq_true]
    intro hc
    obtain ⟨t, ht⟩ := (startsWithMarker_iff _).mp hc
    have hval : ∀ j, j < a.length - i → (a.drop i ++ b)[j]? = a[i + j]? := by
      intro j hj
      rw [List.getElem?_append_left (by rw [List.length_drop]; omega), List.getElem?_drop]
    have hq' := hval (q - i) (by omega)
    rw [show i + (q - i) = q by omega, hdol, ht] at hq'
    have : q - i = 1 := by omega
    rw [this] at hq'
    simp [Config.marker, Config.dollar] at hq'

end Sys2Proof.Machine
end

