-- ==== Sys2Proof/Laws/State.lean ====
section
/-! SUPPORT. What each update of the state does to each field, and what each operation of Machine/Ops.lean and
Machine/Flags.lean is as an update. Later proofs unfold no record update. -/

namespace Sys2Proof.Machine

namespace State

@[simp] theorem withAcc_acc (a : List Byte) (s : State) : (s.withAcc a).acc = a := rfl
@[simp] theorem withAcc_sampleValid (a : List Byte) (s : State) : (s.withAcc a).sampleValid = s.sampleValid := rfl
@[simp] theorem withAcc_frameErr (a : List Byte) (s : State) : (s.withAcc a).frameErr = s.frameErr := rfl
@[simp] theorem withAcc_sampleData (a : List Byte) (s : State) : (s.withAcc a).sampleData = s.sampleData := rfl
@[simp] theorem withAcc_accCap (a : List Byte) (s : State) : (s.withAcc a).accCap = s.accCap := rfl
@[simp] theorem withAcc_pending (a : List Byte) (s : State) : (s.withAcc a).pending = s.pending := rfl
@[simp] theorem withAcc_reservedSeen (a : List Byte) (s : State) : (s.withAcc a).reservedSeen = s.reservedSeen := rfl
@[simp] theorem withAcc_resetDone (a : List Byte) (s : State) : (s.withAcc a).resetDone = s.resetDone := rfl

@[simp] theorem withPulses_acc (v e : Bool) (s : State) : (s.withPulses v e).acc = s.acc := rfl
@[simp] theorem withPulses_sampleValid (v e : Bool) (s : State) : (s.withPulses v e).sampleValid = v := rfl
@[simp] theorem withPulses_frameErr (v e : Bool) (s : State) : (s.withPulses v e).frameErr = e := rfl
@[simp] theorem withPulses_sampleData (v e : Bool) (s : State) : (s.withPulses v e).sampleData = s.sampleData := rfl
@[simp] theorem withPulses_accCap (v e : Bool) (s : State) : (s.withPulses v e).accCap = s.accCap := rfl
@[simp] theorem withPulses_pending (v e : Bool) (s : State) : (s.withPulses v e).pending = s.pending := rfl
@[simp] theorem withPulses_reservedSeen (v e : Bool) (s : State) : (s.withPulses v e).reservedSeen = s.reservedSeen := rfl
@[simp] theorem withPulses_resetDone (v e : Bool) (s : State) : (s.withPulses v e).resetDone = s.resetDone := rfl

@[simp] theorem withSampleData_acc (d : SampleBus) (s : State) : (s.withSampleData d).acc = s.acc := rfl
@[simp] theorem withSampleData_sampleValid (d : SampleBus) (s : State) : (s.withSampleData d).sampleValid = s.sampleValid := rfl
@[simp] theorem withSampleData_frameErr (d : SampleBus) (s : State) : (s.withSampleData d).frameErr = s.frameErr := rfl
@[simp] theorem withSampleData_sampleData (d : SampleBus) (s : State) : (s.withSampleData d).sampleData = d := rfl
@[simp] theorem withSampleData_accCap (d : SampleBus) (s : State) : (s.withSampleData d).accCap = s.accCap := rfl
@[simp] theorem withSampleData_pending (d : SampleBus) (s : State) : (s.withSampleData d).pending = s.pending := rfl
@[simp] theorem withSampleData_reservedSeen (d : SampleBus) (s : State) : (s.withSampleData d).reservedSeen = s.reservedSeen := rfl
@[simp] theorem withSampleData_resetDone (d : SampleBus) (s : State) : (s.withSampleData d).resetDone = s.resetDone := rfl

@[simp] theorem withPending_acc (es : List Edge) (s : State) : (s.withPending es).acc = s.acc := rfl
@[simp] theorem withPending_sampleValid (es : List Edge) (s : State) : (s.withPending es).sampleValid = s.sampleValid := rfl
@[simp] theorem withPending_frameErr (es : List Edge) (s : State) : (s.withPending es).frameErr = s.frameErr := rfl
@[simp] theorem withPending_sampleData (es : List Edge) (s : State) : (s.withPending es).sampleData = s.sampleData := rfl
@[simp] theorem withPending_accCap (es : List Edge) (s : State) : (s.withPending es).accCap = s.accCap := rfl
@[simp] theorem withPending_pending (es : List Edge) (s : State) : (s.withPending es).pending = es := rfl
@[simp] theorem withPending_reservedSeen (es : List Edge) (s : State) : (s.withPending es).reservedSeen = s.reservedSeen := rfl
@[simp] theorem withPending_resetDone (es : List Edge) (s : State) : (s.withPending es).resetDone = s.resetDone := rfl

@[simp] theorem withReservedSeen_acc (s : State) : (s.withReservedSeen).acc = s.acc := rfl
@[simp] theorem withReservedSeen_sampleValid (s : State) : (s.withReservedSeen).sampleValid = s.sampleValid := rfl
@[simp] theorem withReservedSeen_frameErr (s : State) : (s.withReservedSeen).frameErr = s.frameErr := rfl
@[simp] theorem withReservedSeen_sampleData (s : State) : (s.withReservedSeen).sampleData = s.sampleData := rfl
@[simp] theorem withReservedSeen_accCap (s : State) : (s.withReservedSeen).accCap = s.accCap := rfl
@[simp] theorem withReservedSeen_pending (s : State) : (s.withReservedSeen).pending = s.pending := rfl
@[simp] theorem withReservedSeen_reservedSeen (s : State) : (s.withReservedSeen).reservedSeen = true := rfl
@[simp] theorem withReservedSeen_resetDone (s : State) : (s.withReservedSeen).resetDone = s.resetDone := rfl

@[simp] theorem withResetDone_acc (s : State) : (s.withResetDone).acc = s.acc := rfl
@[simp] theorem withResetDone_sampleValid (s : State) : (s.withResetDone).sampleValid = s.sampleValid := rfl
@[simp] theorem withResetDone_frameErr (s : State) : (s.withResetDone).frameErr = s.frameErr := rfl
@[simp] theorem withResetDone_sampleData (s : State) : (s.withResetDone).sampleData = s.sampleData := rfl
@[simp] theorem withResetDone_accCap (s : State) : (s.withResetDone).accCap = s.accCap := rfl
@[simp] theorem withResetDone_pending (s : State) : (s.withResetDone).pending = s.pending := rfl
@[simp] theorem withResetDone_reservedSeen (s : State) : (s.withResetDone).reservedSeen = s.reservedSeen := rfl
@[simp] theorem withResetDone_resetDone (s : State) : (s.withResetDone).resetDone = true := rfl

theorem withPending_self (s : State) : s.withPending s.pending = s := rfl

theorem withPending_withPending (es es' : List Edge) (s : State) :
    (s.withPending es).withPending es' = s.withPending es' := rfl

theorem resetWith_acc (c : Nat) : (resetWith c).acc = [] := rfl

theorem resetWith_accCap (c : Nat) : (resetWith c).accCap = c := rfl

@[simp] theorem resetWith_resetDone (c : Nat) : (resetWith c).resetDone = true := rfl

end State

theorem clearPulses_eq (s : State) : clearPulses s = s.withPulses false false := rfl

theorem raiseSample_eq (d : SampleBus) (s : State) :
    raiseSample d s = (s.withPulses true s.frameErr).withSampleData d := rfl

theorem raiseMismatch_eq (s : State) : raiseMismatch s = s.withPulses s.sampleValid true := rfl

theorem markReserved_eq (s : State) : markReserved s = s.withReservedSeen := rfl

theorem accAppend_eq (b : Byte) (s : State) : accAppend b s = s.withAcc (s.acc ++ [b]) := rfl

theorem accConsume_eq (h : Nat) (s : State) : accConsume h s = s.withAcc (s.acc.drop (h + 16)) := rfl

theorem accTrim_eq (s : State) : accTrim s = s.withAcc (trimmed s.acc) := rfl

/-- An edge with `rst = 1` leaves the reset state of the build, but for what the model carries (R26, R105). -/
theorem resetEdge_eq (s : State) :
    resetEdge s = { State.resetWith s.accCap with pending := s.pending, reservedSeen := s.reservedSeen } := rfl

theorem accClear_eq (s : State) : accClear s = s.withAcc [] := rfl

/-- The bound changes the accumulator only (R68). -/
theorem makeRoom_eq (s : State) :
    makeRoom s = s.withAcc (if s.acc.length = s.accCap then s.acc.drop 1 else s.acc) := by
  unfold makeRoom
  split <;> rfl

end Sys2Proof.Machine
end

