-- ==== Sys2Proof/Laws/Pass.lean ====
section
/-! SUPPORT. What the extraction pass does, in each of its cases and without the bound on its iterations (R67, R70 to
R79), and the one induction over a pass. -/

namespace Sys2Proof.Machine

theorem candidateAt_length {acc : List Byte} {h : Nat} (hl : 16 ≤ acc.length - h) : (candidateAt acc h).length = 16 := by
  simp only [candidateAt, slice, Config.frameLen, List.length_take, List.length_drop]
  omega

/-- The candidate at a found marker starts with it (R65). -/
theorem candidateAt_startsWithMarker {acc : List Byte} {h : Nat} (hf : findMarker acc = some h) :
    startsWithMarker (candidateAt acc h) = true := by
  have := (findMarker_eq_some_iff.mp hf).1
  unfold startsWithMarker at this ⊢
  rw [candidateAt, slice, List.take_take]
  simpa using this

/-- The verdict on the candidate at a found marker (R62, R65). -/
theorem validateAndDecode_candidateAt {acc : List Byte} {h : Nat} (hf : findMarker acc = some h)
    (hl : 16 ≤ acc.length - h) :
    validateAndDecode (candidateAt acc h) =
      if crcCalc (candidateAt acc h) = crcRx (candidateAt acc h) then .ok (payloadOf (candidateAt acc h))
      else .checksumMismatch :=
  validateAndDecode_of_precondition (candidateAt_length hl) (candidateAt_startsWithMarker hf)

/-- The event of the candidate at a found marker, raised on a state (R76, R77). -/
def raisedAt (acc : List Byte) (h : Nat) (s : State) : State :=
  if crcCalc (candidateAt acc h) = crcRx (candidateAt acc h) then raiseSample (pack (payloadOf (candidateAt acc h))) s
  else raiseMismatch s

theorem raisedAt_acc (acc : List Byte) (h : Nat) (s : State) : (raisedAt acc h s).acc = s.acc := by
  unfold raisedAt
  split <;> rfl

theorem passWithin_short {n : Nat} {s : State} (hl : s.acc.length < 16) : passWithin n s = .next s := by
  cases n <;> simp [passWithin, hl]

theorem passWithin_trim {n : Nat} {s : State} (hl : 16 ≤ s.acc.length) (hf : findMarker s.acc = none) :
    passWithin (n + 1) s = .next (accTrim s) := by
  simp [passWithin, Nat.not_lt.mpr hl, hf]

theorem passWithin_wait {n : Nat} {s : State} {h : Nat} (hf : findMarker s.acc = some h)
    (hl : s.acc.length - h < 16) : passWithin (n + 1) s = .next s := by
  simp [passWithin, hf, hl]

theorem passWithin_candidate {n : Nat} {s : State} {h : Nat} (hf : findMarker s.acc = some h)
    (hl : 16 ≤ s.acc.length - h) :
    passWithin (n + 1) s = passWithin n (accConsume h (raisedAt s.acc h s)) := by
  have h1 : ¬ s.acc.length < 16 := by omega
  simp only [passWithin, Config.frameLen, h1, if_false, hf, Nat.not_lt.mpr hl, validateAndDecode_candidateAt hf hl,
    raisedAt]
  by_cases hc : crcCalc (candidateAt s.acc h) = crcRx (candidateAt s.acc h) <;> simp only [hc, if_true, if_false]

theorem accConsume_raisedAt_acc (h : Nat) (s : State) :
    (accConsume h (raisedAt s.acc h s)).acc = s.acc.drop (h + 16) := by
  rw [accConsume_eq, State.withAcc_acc, raisedAt_acc]

/-- Iterations above R79's bound are never used. -/
theorem passWithin_eq_of_le {n m : Nat} {s : State} (hn : s.acc.length / 16 + 1 ≤ n) (hm : s.acc.length / 16 + 1 ≤ m) :
    passWithin n s = passWithin m s := by
  induction n generalizing m s with
  | zero => omega
  | succ n ih =>
    cases m with
    | zero => omega
    | succ m =>
      by_cases hl : s.acc.length < 16
      · rw [passWithin_short hl, passWithin_short hl]
      · rw [Nat.not_lt] at hl
        cases hf : findMarker s.acc with
        | none => rw [passWithin_trim hl hf, passWithin_trim hl hf]
        | some h =>
          by_cases hw : s.acc.length - h < 16
          · rw [passWithin_wait hf hw, passWithin_wait hf hw]
          · rw [Nat.not_lt] at hw
            rw [passWithin_candidate hf hw, passWithin_candidate hf hw]
            apply ih <;> rw [accConsume_raisedAt_acc, List.length_drop] <;> omega

theorem pass_short {s : State} (hl : s.acc.length < 16) : pass s = .next s := passWithin_short hl

theorem pass_trim {s : State} (hl : 16 ≤ s.acc.length) (hf : findMarker s.acc = none) :
    pass s = .next (accTrim s) := passWithin_trim hl hf

theorem pass_wait {s : State} {h : Nat} (hf : findMarker s.acc = some h) (hl : s.acc.length - h < 16) :
    pass s = .next s := passWithin_wait hf hl

theorem pass_candidate {s : State} {h : Nat} (hf : findMarker s.acc = some h) (hl : 16 ≤ s.acc.length - h) :
    pass s = pass (accConsume h (raisedAt s.acc h s)) := by
  rw [pass, passWithin_candidate hf hl]
  apply passWithin_eq_of_le <;> simp only [accConsume_raisedAt_acc, List.length_drop, Config.frameLen] <;> omega

/-- The induction over a pass: it always answers a next state, and what holds where it stops and is kept backwards over
each consumed candidate holds of the whole pass. -/
theorem pass_induction (P : State → State → Prop)
    (short : ∀ s, s.acc.length < 16 → P s s)
    (trim : ∀ s, 16 ≤ s.acc.length → findMarker s.acc = none → P s (accTrim s))
    (wait : ∀ s h, findMarker s.acc = some h → s.acc.length - h < 16 → P s s)
    (candidate : ∀ s t h, findMarker s.acc = some h → 16 ≤ s.acc.length - h →
      P (accConsume h (raisedAt s.acc h s)) t → P s t) (s : State) :
    ∃ t, pass s = .next t ∧ P s t := by
  generalize hn : s.acc.length = n
  induction n using Nat.strong_induction_on generalizing s with
  | _ n ih =>
    by_cases hl : s.acc.length < 16
    · exact ⟨s, pass_short hl, short s hl⟩
    · rw [Nat.not_lt] at hl
      cases hf : findMarker s.acc with
      | none => exact ⟨_, pass_trim hl hf, trim s hl hf⟩
      | some h =>
        by_cases hw : s.acc.length - h < 16
        · exact ⟨s, pass_wait hf hw, wait s h hf hw⟩
        · rw [Nat.not_lt] at hw
          obtain ⟨t, ht, hP⟩ := ih _ (by rw [accConsume_raisedAt_acc, List.length_drop]; omega)
            (accConsume h (raisedAt s.acc h s)) rfl
          exact ⟨t, by rw [pass_candidate hf hw, ht], candidate s t h hf hw hP⟩

end Sys2Proof.Machine
end

