-- ==== Sys2Proof/Laws/PerInstr.lean ====
section
/-! SUPPORT. Statements made command by command, over each command as a word. -/

namespace Sys2Proof.Laws.OpcodeRow

/-- The command's word lies in the row of the opcode table that its mnemonic names, and carries its data field whole
(R42, R45). -/
def Statement (i : Instr) : Prop :=
  (∃ r, r ∈ opcodeTable ∧ r.mnemonic = mnemonicOf i ∧ r.holds (encode i) = true) ∧ dataField (encode i) = i.data

theorem nop (data : Byte) : Statement (.nop data) :=
  ⟨⟨⟨"NOP", 0x000, 0x300⟩, by simp [opcodeTable], rfl, by revert data; decide⟩, dataField_encode _⟩

theorem push (b : Byte) : Statement (.push b) :=
  ⟨⟨⟨"PUSH", 0x100, 0x300⟩, by simp [opcodeTable], rfl, by revert b; decide⟩, dataField_encode _⟩

theorem clear (data : Byte) : Statement (.clear data) :=
  ⟨⟨⟨"CLEAR", 0x200, 0x300⟩, by simp [opcodeTable], rfl, by revert data; decide⟩, dataField_encode _⟩

theorem reserved (data : Byte) : Statement (.reserved data) :=
  ⟨⟨⟨"RESERVED", 0x300, 0x300⟩, by simp [opcodeTable], rfl, by revert data; decide⟩, dataField_encode _⟩

end Sys2Proof.Laws.OpcodeRow
end

