-- ==== Sys2Proof/Laws/Ports.lean ====
section
/-! SUPPORT. The width of the level port (R8) and the number it carries (R21). -/

namespace Sys2Proof.Machine

/-- The width of R8 is `ceil(log2(ACC_CAP + 1))`. -/
theorem accLevelW_eq_clog {c : Nat} (hc : c ≠ 0) : accLevelW c = Nat.clog 2 (c + 1) := by
  unfold accLevelW
  rw [Nat.log2_eq_log_two]
  apply le_antisymm
  · rw [Nat.succ_le_iff, Nat.lt_clog_iff_pow_lt (by norm_num)]
    have := Nat.pow_log_le_self 2 hc
    omega
  · rw [Nat.clog_le_iff_le_pow (by norm_num)]
    exact Nat.lt_pow_succ_log_self (by norm_num) c

/-- The port is wide enough for every level the capacity allows, so it carries the length itself (R21). -/
theorem accLevel_toNat {s : State} (h : s.acc.length ≤ s.accCap) : (accLevel s).toNat = s.acc.length := by
  unfold accLevel accLevelW
  rw [BitVec.toNat_ofNat]
  exact Nat.mod_eq_of_lt (lt_of_le_of_lt h (Nat.lt_log2_self))

/-- Three of the ports are registers of the state (R25). -/
theorem ports_pulses (s : State) :
    (ports s).sampleValid = s.sampleValid ∧ (ports s).frameErr = s.frameErr ∧ (ports s).sampleData = s.sampleData :=
  ⟨rfl, rfl, rfl⟩

end Sys2Proof.Machine
end

