-- ==== Sys2Proof/Laws/Push.lean ====
section
/-! SUPPORT. What a PUSH does from a reachable state: the accumulator the pass meets (R68, R69), and the one next state
of each outcome (R81). -/

namespace Sys2Proof.Machine

/-- What the pass of a PUSH meets in the accumulator: the bytes after the drop and the append (R68, R69). -/
def pushedAcc (b : Byte) (s : State) : List Byte :=
  (if s.acc.length = s.accCap then s.acc.drop 1 else s.acc) ++ [b]

theorem execPush_eq (b : Byte) (s : State) :
    execPush b s = pass ((s.withPulses false false).withAcc (pushedAcc b s)) := by
  unfold execPush
  rw [accAppend_eq, makeRoom_eq, clearPulses_eq]
  rfl

theorem pushedAcc_length_le {b : Byte} {s : State} (hi : StateInv s) : (pushedAcc b s).length ≤ s.accCap := by
  obtain ⟨hc, hl, -, -⟩ := hi
  simp only [Config.accCapMin] at hc
  unfold pushedAcc
  split <;> simp only [List.length_append, List.length_drop, List.length_singleton] <;> omega

/-- From a reachable state the marker a PUSH finds has at most 16 bytes from it: the byte that completes its candidate
is the newest (R81, cases i to iv). -/
theorem pushedAcc_marker {b : Byte} {s : State} (hi : StateInv s) {h : Nat} (hf : findMarker (pushedAcc b s) = some h) :
    (pushedAcc b s).length - h ≤ 16 := by
  obtain ⟨hc, hl, hsome, hnone⟩ := hi
  simp only [Config.accCapMin] at hc
  by_cases hs : s.acc.length < 16
  · unfold pushedAcc
    split <;> simp only [List.length_append, List.length_drop, List.length_singleton] <;> omega
  · rw [Nat.not_lt] at hs
    cases ho : findMarker s.acc with
    | some h0 =>
      have hle := hsome hs h0 ho
      have hlt := findMarker_add_three_le ho
      unfold pushedAcc at hf ⊢
      split at hf
      · rename_i hfull
        have h1 := findMarker_drop (n := 1) (a := s.acc) (by omega) (by
          intro i hi1
          exact (findMarker_eq_some_iff.mp ho).2 i (by omega))
        rw [ho] at h1
        obtain ⟨k, hk, hk1⟩ := Option.map_eq_some_iff.mp h1.symm
        rw [findMarker_append_of_some hk] at hf
        cases hf
        rw [if_pos hfull]
        simp only [List.length_append, List.length_drop, List.length_singleton]
        omega
      · rename_i hfull
        rw [findMarker_append_of_some ho] at hf
        cases hf
        rw [if_neg hfull]
        simp only [List.length_append, List.length_singleton]
        omega
    | none =>
      obtain ⟨-, hother⟩ := hnone hs ho
      exfalso
      have hm := (findMarker_eq_some_iff.mp hf).1
      have hlen := findMarker_add_three_le hf
      have hnm := findMarker_eq_none_iff.mp ho 0
      obtain ⟨t, ht⟩ := (startsWithMarker_iff _).mp hm
      have h0 : (pushedAcc b s)[h]? = some Config.dollar := by
        have := congrArg (fun l => l[0]?) ht
        simpa [Config.marker, Config.dollar] using this
      unfold pushedAcc at h0 hlen hm
      split at h0
      · rename_i hfull
        rw [if_pos hfull] at hlen
        simp only [List.length_append, List.length_drop, List.length_singleton] at hlen
        rw [List.getElem?_append_left (by rw [List.length_drop]; omega), List.getElem?_drop] at h0
        exact hother (1 + h) (by omega) (by omega) h0
      · rename_i hfull
        rw [if_neg hfull] at hlen hm
        simp only [List.length_append, List.length_singleton] at hlen
        rw [List.getElem?_append_left (by omega)] at h0
        by_cases hz : h = 0
        · subst hz
          rw [List.drop_zero, startsWithMarker_append_of_length (by omega)] at hm
          rw [List.drop_zero] at hnm
          rw [hnm] at hm
          exact absurd hm (by simp)
        · exact hother h (by omega) (by omega) h0

theorem accInv_of_short {c : Nat} {a : List Byte} (hc : a.length ≤ c) (hl : a.length < 16) : AccInv c a :=
  ⟨hc, by omega, by omega⟩

theorem accInv_of_wait {c : Nat} {a : List Byte} (hc : a.length ≤ c) {h : Nat} (hf : findMarker a = some h)
    (hl : a.length - h ≤ 15) : AccInv c a := by
  refine ⟨hc, fun _ k hk => ?_, fun _ hn => ?_⟩
  · rw [hf] at hk
    cases hk
    exact hl
  · rw [hf] at hn
    exact absurd hn (by simp)

/-- A trim leaves a lone `'$'` in front, or nothing (R73). -/
theorem accInv_trimmed {c : Nat} {a : List Byte} (hc : a.length ≤ c) (hf : findMarker a = none) :
    AccInv c (trimmed a) := by
  unfold trimmed
  cases hq : lastDollar a with
  | none => exact accInv_of_short (by simp) (by simp)
  | some q =>
    have hq' := lastDollar_eq_some_iff.mp hq
    refine ⟨by simp only [List.length_drop]; omega, fun _ h hs => ?_, fun _ _ => ⟨?_, fun i hi _ hd => ?_⟩⟩
    · simp only [findMarker_drop_none hf q] at hs
      exact absurd hs (by simp)
    · simpa using hq'.1
    · simp only [List.getElem?_drop] at hd
      have : (a.drop (q + 1))[i - 1]? = some Config.dollar := by
        rw [List.getElem?_drop, show q + 1 + (i - 1) = q + i by omega]
        exact hd
      exact hq'.2 (List.mem_of_getElem? this)

/-- Everything a PUSH can do from a reachable state (R81): the five outcomes, each with its whole next state. -/
theorem execPush_cases {b : Byte} {s : State} (hi : StateInv s) :
    (pushedAcc b s).length < 16 ∧ execPush b s = .next ((s.withPulses false false).withAcc (pushedAcc b s)) ∨
    16 ≤ (pushedAcc b s).length ∧ findMarker (pushedAcc b s) = none ∧
      execPush b s = .next ((s.withPulses false false).withAcc (trimmed (pushedAcc b s))) ∨
    16 ≤ (pushedAcc b s).length ∧ (∃ h, findMarker (pushedAcc b s) = some h ∧ (pushedAcc b s).length - h ≤ 15) ∧
      execPush b s = .next ((s.withPulses false false).withAcc (pushedAcc b s)) ∨
    ∃ h, findMarker (pushedAcc b s) = some h ∧ (pushedAcc b s).length - h = 16 ∧
      execPush b s = .next ((raisedAt (pushedAcc b s) h (s.withPulses false false)).withAcc []) := by
  rw [execPush_eq]
  by_cases hl : (pushedAcc b s).length < 16
  · exact .inl ⟨hl, pass_short hl⟩
  · rw [Nat.not_lt] at hl
    cases hf : findMarker (pushedAcc b s) with
    | none => exact .inr (.inl ⟨hl, rfl, pass_trim hl hf⟩)
    | some h =>
      by_cases hw : (pushedAcc b s).length - h < 16
      · exact .inr (.inr (.inl ⟨hl, ⟨h, rfl, by omega⟩, pass_wait hf hw⟩))
      · have h16 := pushedAcc_marker hi hf
        refine .inr (.inr (.inr ⟨h, rfl, by omega, ?_⟩))
        rw [pass_candidate hf (by simp only [State.withAcc_acc]; omega)]
        have hd : (pushedAcc b s).drop (h + 16) = [] := List.drop_eq_nil_of_le (by omega)
        rw [pass_short (by rw [accConsume_raisedAt_acc, State.withAcc_acc, hd]; simp)]
        congr 1
        rw [accConsume_eq, raisedAt_acc, State.withAcc_acc, hd]
        unfold raisedAt
        split <;> rfl

/-- The fields a raised event leaves. -/
theorem raisedAt_frame (acc : List Byte) (h : Nat) (s : State) :
    (raisedAt acc h s).accCap = s.accCap ∧ (raisedAt acc h s).pending = s.pending ∧
      (raisedAt acc h s).reservedSeen = s.reservedSeen ∧ (raisedAt acc h s).resetDone = s.resetDone := by
  unfold raisedAt
  split <;> exact ⟨rfl, rfl, rfl, rfl⟩

/-- A PUSH keeps the reachable form (R28, R81). -/
theorem execPush_inv {b : Byte} {s : State} (hi : StateInv s) : ∃ t, execPush b s = .next t ∧ StateInv t := by
  have hc := pushedAcc_length_le (b := b) hi
  have hcap : Config.accCapMin ≤ s.accCap := hi.1
  obtain ⟨hl, h⟩ | ⟨-, hf, h⟩ | ⟨-, ⟨k, hf, hk⟩, h⟩ | ⟨k, -, -, h⟩ := execPush_cases (b := b) hi
  · exact ⟨_, h, hcap, accInv_of_short hc hl⟩
  · exact ⟨_, h, hcap, accInv_trimmed hc hf⟩
  · exact ⟨_, h, hcap, accInv_of_wait hc hf hk⟩
  · refine ⟨_, h, ?_, accInv_of_short (by simp) (by simp)⟩
    rw [State.withAcc_accCap, (raisedAt_frame _ _ _).1]
    exact hcap

end Sys2Proof.Machine
end

