-- ==== Sys2Proof/Laws/Run.lean ====
section
/-! SUPPORT. What one edge of a run can do (R13, R46, R87, R105): what every command keeps, which edges a run goes past
and at which it is refused, and how a run's observation and events go on from an edge. -/

namespace Sys2Proof.Machine

@[simp] theorem thenNext_next {α β : Type} (a : α) (k : α → Host.Outcome β Fault Refusal) :
    thenNext (.next a) k = k a := rfl

@[simp] theorem thenNext_fault {α β : Type} (f : Fault) (k : α → Host.Outcome β Fault Refusal) :
    thenNext (.fault f) k = .fault f := rfl

@[simp] theorem thenNext_refused {α β : Type} (r : Refusal) (k : α → Host.Outcome β Fault Refusal) :
    thenNext (.refused r) k = .refused r := rfl

/-- What every command keeps: it completes, leaves the capacity, the input to come and the mark of a reset, and records
exactly the reserved op. -/
theorem exec_frame (i : Instr) (s : State) : ∃ t, exec i s = .next t ∧ t.pending = s.pending ∧ t.accCap = s.accCap ∧
    t.reservedSeen = (s.reservedSeen || !i.conforming) ∧ t.resetDone = s.resetDone := by
  cases i with
  | nop d => exact ⟨_, rfl, rfl, rfl, (Bool.or_false _).symm, rfl⟩
  | clear d => exact ⟨_, rfl, rfl, rfl, (Bool.or_false _).symm, rfl⟩
  | reserved d => exact ⟨_, rfl, rfl, rfl, (Bool.or_true _).symm, rfl⟩
  | push b =>
    obtain ⟨t, h, hp, hc, hr, hd⟩ := pass_induction
      (fun s t => t.pending = s.pending ∧ t.accCap = s.accCap ∧ t.reservedSeen = s.reservedSeen ∧
        t.resetDone = s.resetDone)
      (by simp) (by simp [accTrim]) (by simp)
      (by
        intro s t h _ _ ht
        simp only [accConsume_eq, State.withAcc_pending, State.withAcc_accCap, State.withAcc_reservedSeen,
          State.withAcc_resetDone] at ht
        obtain ⟨h1, h2, h3, h4⟩ := raisedAt_frame s.acc h s
        rwa [h1, h2, h3, h4] at ht)
      ((s.withPulses false false).withAcc (pushedAcc b s))
    exact ⟨t, (execPush_eq b s).trans h, hp, hc, by rw [hr]; exact (Bool.or_false _).symm, hd⟩

/-- An edge of the input once there has been an `rst`, or that is one: it completes, is taken from the input, and
records exactly a reserved word that it performs. -/
theorem step_frame {s : State} {e : Edge} {rest : List Edge} (h : s.pending = e :: rest)
    (hb : s.resetDone = true ∨ e.rst = true) :
    ∃ t, step s = .next t ∧ t.pending = rest ∧ t.accCap = s.accCap ∧
      t.reservedSeen = (s.reservedSeen || !edgeConforming e) ∧ t.resetDone = true := by
  cases hr : e.rst with
  | true => exact ⟨resetEdge (s.withPending rest), by simp [step, h, hr], rfl, rfl, by
      simp [edgeConforming, hr, resetEdge, accClear], rfl⟩
  | false =>
    obtain hd | hd := hb
    · obtain ⟨t, ht⟩ := exec_frame (decodeWord e.cmd) (s.withPending rest)
      exact ⟨t, by simpa [step, h, hr, hd, edgeConforming] using ht⟩
    · exact absurd hd (by simp [hr])

/-- Before the first `rst` every other edge is refused (R107). -/
theorem step_of_beforeReset {s : State} {e : Edge} {rest : List Edge} (h : s.pending = e :: rest)
    (hd : s.resetDone = false) (hr : e.rst = false) : step s = .refused .beforeReset := by
  simp [step, h, hr, hd]

/-- A run does not start with any other edge than an `rst` (R107). -/
theorem runStep_of_beforeReset {s : State} {e : Edge} {rest : List Edge} (h : s.pending = e :: rest)
    (hd : s.resetDone = false) (hr : e.rst = false) : runStep s = .refused .beforeReset := by
  rw [runStep, step_of_beforeReset h hd hr, thenNext_refused]

/-- A run goes past an edge that performs no reserved word, as the hardware does. -/
theorem runStep_of_conforming {s : State} {e : Edge} {rest : List Edge} (h : s.pending = e :: rest)
    (hb : s.resetDone = true ∨ e.rst = true) (hs : s.reservedSeen = false) (he : edgeConforming e = true) :
    ∃ t, step s = .next t ∧ runStep s = .next t ∧ t.pending = rest ∧ t.accCap = s.accCap ∧ t.reservedSeen = false ∧
      t.resetDone = true := by
  obtain ⟨t, ht, hp, hc, hr, hd⟩ := step_frame h hb
  rw [hs, he] at hr
  exact ⟨t, ht, by rw [runStep, ht, thenNext_next, hr]; rfl, hp, hc, hr, hd⟩

/-- A run is refused at the edge that performs a reserved word, and at every edge after it (R87). -/
theorem runStep_of_reserved {s : State} {e : Edge} {rest : List Edge} (h : s.pending = e :: rest)
    (hb : s.resetDone = true ∨ e.rst = true) (hr : s.reservedSeen = true ∨ edgeConforming e = false) :
    runStep s = .refused .reservedInRun := by
  obtain ⟨t, ht, -, -, ht', -⟩ := step_frame h hb
  have : t.reservedSeen = true := by
    rw [ht']
    obtain h | h := hr <;> simp [h]
  rw [runStep, ht, thenNext_next, this]
  rfl

/-- The edges of a chunk perform PUSH words, so they conform. -/
theorem chunkEdges_conforming {bs : List Byte} {e : Edge} (he : e ∈ chunkEdges bs) :
    edgeConforming e = true := by
  simp only [chunkEdges, wordEdges, pushWords, List.map_map, List.mem_map, Function.comp] at he
  obtain ⟨b, -, rfl⟩ := he
  have : decodeWord (encode (.push b)) = .push b := by
    unfold decodeWord
    rw [opField_encode, dataField_encode]
    rfl
  simp [edgeConforming, this, Instr.conforming]

/-- The events of an input by its first edge, where the run goes past it. -/
theorem edgeEvents_cons {s t : State} {e : Edge} {rest : List Edge} (h : s.pending = e :: rest) (ht : runStep s = .next t)
    (hp : t.pending = rest) :
    edgeEvents s = thenNext (edgeEvents t) (fun es => .next (portEvents (ports t) :: es)) := by
  unfold edgeEvents observed
  rw [h, hp, List.length_cons, observations, ht, thenNext_next]
  cases observations rest.length t <;> rfl

/-- The events of an input in order, by its first edge. -/
theorem runEvents_cons {s t : State} {e : Edge} {rest : List Edge} (h : s.pending = e :: rest) (ht : runStep s = .next t)
    (hp : t.pending = rest) :
    runEvents s = thenNext (runEvents t) (fun evs => .next (portEvents (ports t) ++ evs)) := by
  unfold runEvents
  rw [edgeEvents_cons h ht hp]
  cases edgeEvents t <;> rfl

end Sys2Proof.Machine
end

