-- ==== Sys2Proof/Laws/Stream.lean ====
section
/-! SUPPORT. `Extract` (R82) by its front: what it gives on a sequence whose first marker is known, and why neither a
trim nor a drop of the oldest byte changes it. -/

namespace Sys2Proof.Machine

/-- Offsets found in what is left after `n` bytes, as offsets in the whole. -/
def shifted (n : Nat) (l : List (Nat × Event)) : List (Nat × Event) := l.map (fun e => (e.1 + n, e.2))

theorem shifted_zero (l : List (Nat × Event)) : shifted 0 l = l := by simp [shifted]

theorem shifted_shifted (n m : Nat) (l : List (Nat × Event)) : shifted n (shifted m l) = shifted (m + n) l := by
  simp [shifted, Nat.add_assoc]

theorem map_snd_shifted (n : Nat) (l : List (Nat × Event)) : (shifted n l).map Prod.snd = l.map Prod.snd := by
  simp [shifted, Function.comp_def]

theorem candidateAt_drop (a : List Byte) (n h : Nat) : candidateAt (a.drop n) h = candidateAt a (h + n) := by
  simp only [candidateAt, slice, List.drop_drop, Config.frameLen]
  congr 1
  · omega
  · rw [Nat.add_comm]

theorem candidateAt_append {a : List Byte} {h : Nat} (hl : h + 16 ≤ a.length) (b : List Byte) :
    candidateAt (a ++ b) h = candidateAt a h := by
  simp only [candidateAt, slice, Config.frameLen]
  rw [List.drop_append_of_le_length (by omega), List.take_append_of_le_length (by rw [List.length_drop]; omega)]

theorem findMarkerFrom_eq (p : Nat) (B : List Byte) : findMarkerFrom p B = (findMarker (B.drop p)).map (· + p) := rfl

/-- The loop from a position is the loop on what is left there. -/
theorem extractFrom_eq_shifted (n p : Nat) (B : List Byte) :
    extractFrom n p B = shifted p (extractFrom n 0 (B.drop p)) := by
  induction n generalizing p B with
  | zero => rfl
  | succ n ih =>
    simp only [extractFrom, findMarkerFrom_eq, List.drop_zero, Nat.add_zero, Option.map_id', Config.frameLen]
    cases hf : findMarker (B.drop p) with
    | none => rfl
    | some h =>
      have h3 := findMarker_add_three_le hf
      simp only [Option.map_some, List.length_drop] at h3 ⊢
      by_cases hl : B.length < h + p + 16
      · rw [if_pos hl, if_pos (by omega)]
        rfl
      · rw [if_neg hl, if_neg (by omega), ih (h + p + 16) B, ih (h + 16) (B.drop p), List.drop_drop]
        simp only [shifted, List.map_cons, List.map_map, candidateAt_drop]
        congr 1
        rw [show p + (h + 16) = h + p + 16 by omega]
        congr 1
        funext e
        simp only [Function.comp]
        congr 1
        omega

/-- Rounds above the bound are never used. -/
theorem extractFrom_eq_of_le {n m : Nat} {B : List Byte} (hn : B.length / 16 + 1 ≤ n) (hm : B.length / 16 + 1 ≤ m) :
    extractFrom n 0 B = extractFrom m 0 B := by
  induction n generalizing m B with
  | zero => omega
  | succ n ih =>
    cases m with
    | zero => omega
    | succ m =>
      simp only [extractFrom, findMarkerFrom_eq, List.drop_zero, Nat.add_zero, Option.map_id', Config.frameLen]
      cases hf : findMarker B with
      | none => rfl
      | some h =>
        simp only
        by_cases hl : B.length < h + 16
        · rw [if_pos hl, if_pos hl]
        · rw [if_neg hl, if_neg hl, extractFrom_eq_shifted n, extractFrom_eq_shifted m,
            ih (m := m) (by rw [List.length_drop]; omega) (by rw [List.length_drop]; omega)]

theorem extractAt_of_none {B : List Byte} (hf : findMarker B = none) : extractAt B = [] := by
  simp [extractAt, extractFrom, findMarkerFrom_eq, hf]

theorem extractAt_of_short {B : List Byte} {h : Nat} (hf : findMarker B = some h) (hl : B.length < h + 16) :
    extractAt B = [] := by
  simp [extractAt, extractFrom, findMarkerFrom_eq, hf, hl]

/-- The first candidate, and `Extract` of the bytes after it (R80, R82). -/
theorem extractAt_of_candidate {B : List Byte} {h : Nat} (hf : findMarker B = some h) (hl : h + 16 ≤ B.length) :
    extractAt B = (h, candidateEvent (candidateAt B h)) :: shifted (h + 16) (extractAt (B.drop (h + 16))) := by
  have hr : extractFrom (B.length / 16) (h + 16) B = shifted (h + 16) (extractAt (B.drop (h + 16))) := by
    rw [extractFrom_eq_shifted, extractAt,
      extractFrom_eq_of_le (m := (B.drop (h + 16)).length / 16 + 1) (by rw [List.length_drop]; omega) (le_refl _)]
  rw [← hr, extractAt]
  simp [extractFrom, findMarkerFrom_eq, hf, Nat.not_lt.mpr hl]

/-- The induction over `Extract`: its three cases, each with what its rest satisfies. -/
theorem extractAt_induction (P : List Byte → Prop)
    (none : ∀ B, findMarker B = .none → P B)
    (short : ∀ B h, findMarker B = some h → B.length < h + 16 → P B)
    (candidate : ∀ B h, findMarker B = some h → h + 16 ≤ B.length → P (B.drop (h + 16)) → P B) (B : List Byte) : P B := by
  generalize hn : B.length = n
  induction n using Nat.strong_induction_on generalizing B with
  | _ n ih =>
    cases hf : findMarker B with
    | none => exact none B hf
    | some h =>
      by_cases hl : B.length < h + 16
      · exact short B h hf hl
      · exact candidate B h hf (by omega) (ih _ (by rw [List.length_drop]; omega) _ rfl)

/-- A front in which no marker starts is skipped (R82). -/
theorem extractAt_drop {B : List Byte} {n : Nat} (hn : n ≤ B.length)
    (hno : ∀ i, i < n → startsWithMarker (B.drop i) = false) : extractAt B = shifted n (extractAt (B.drop n)) := by
  have hd := findMarker_drop hn hno
  cases hf : findMarker (B.drop n) with
  | none =>
    rw [hf] at hd
    rw [extractAt_of_none hd, extractAt_of_none hf]
    rfl
  | some h =>
    rw [hf, Option.map_some] at hd
    by_cases hl : h + 16 ≤ (B.drop n).length
    · have hl' := hl
      rw [List.length_drop] at hl'
      rw [extractAt_of_candidate hd (by omega), extractAt_of_candidate hf hl, candidateAt_drop, List.drop_drop]
      simp only [shifted, List.map_cons, List.map_map]
      rw [show n + (h + 16) = h + n + 16 by omega]
      congr 2
      funext e
      simp only [Function.comp]
      congr 1
      omega
    · have hl' := hl
      rw [List.length_drop] at hl'
      rw [extractAt_of_short hd (by omega), extractAt_of_short hf (by omega)]
      rfl

theorem extract_of_none {B : List Byte} (hf : findMarker B = none) : extract B = [] := by
  rw [extract, extractAt_of_none hf]
  rfl

theorem extract_of_short {B : List Byte} {h : Nat} (hf : findMarker B = some h) (hl : B.length < h + 16) :
    extract B = [] := by
  rw [extract, extractAt_of_short hf hl]
  rfl

theorem extract_of_candidate {B : List Byte} {h : Nat} (hf : findMarker B = some h) (hl : h + 16 ≤ B.length) :
    extract B = candidateEvent (candidateAt B h) :: extract (B.drop (h + 16)) := by
  rw [extract, extractAt_of_candidate hf hl, List.map_cons, map_snd_shifted]
  rfl

theorem extract_drop {B : List Byte} {n : Nat} (hn : n ≤ B.length)
    (hno : ∀ i, i < n → startsWithMarker (B.drop i) = false) : extract B = extract (B.drop n) := by
  rw [extract, extractAt_drop hn hno, map_snd_shifted]
  rfl

/-- Fewer than 16 bytes from the first marker hold no event. -/
theorem extract_eq_nil {a : List Byte} (h : ∀ k, findMarker a = some k → a.length - k < 16) : extract a = [] := by
  cases hf : findMarker a with
  | none => exact extract_of_none hf
  | some k =>
    have := h k hf
    exact extract_of_short hf (by omega)

/-- A trim changes no later event (R73, R82), under either reading of D9. -/
theorem extract_trimmedBy (r : Reading) {a : List Byte} (hf : findMarker a = none) (b : List Byte) :
    extract (a ++ b) = extract (trimmedBy r a ++ b) := by
  unfold trimmedBy
  cases hq : lastDollar a with
  | some q =>
    have hlt := lastDollar_lt hq
    rw [extract_drop (B := a ++ b) (n := q) (by rw [List.length_append]; omega)
      (fun i hi => no_marker_before_last_dollar hf b hq hi), List.drop_append_of_le_length hlt.le]
  | none =>
    cases r.keepWithoutDollar with
    | true => rfl
    | false =>
      rw [extract_drop (B := a ++ b) (n := a.length) (by rw [List.length_append]; omega)
        (fun i hi => startsWithMarker_drop_of_no_dollar (lastDollar_eq_none_iff.mp hq) hi)]
      simp

theorem trimmed_eq_trimmedBy (a : List Byte) : trimmed a = trimmedBy ⟨none, false⟩ a := by
  unfold trimmed trimmedBy
  cases lastDollar a <;> rfl

/-- The drop of the oldest byte of an accumulator that has been through a pass changes no later event (R68, R82). -/
theorem extract_drop_oldest {a : List Byte} (hl : 16 ≤ a.length)
    (hp : ∀ k, findMarker a = some k → a.length - k < 16) (b : List Byte) :
    extract (a ++ b) = extract (a.drop 1 ++ b) := by
  rw [← List.drop_append_of_le_length (by omega)]
  refine extract_drop (by rw [List.length_append]; omega) (fun i hi => ?_)
  rw [show i = 0 by omega, List.drop_zero, startsWithMarker_append_of_length (by omega)]
  cases hf : findMarker a with
  | none => simpa using findMarker_eq_none_iff.mp hf 0
  | some k =>
    have := hp k hf
    simpa using (findMarker_eq_some_iff.mp hf).2 0 (by omega)

/-- A complete candidate is the first event, whatever bytes come later (R75, R78, R82). -/
theorem extract_append_of_candidate {a : List Byte} {h : Nat} (hf : findMarker a = some h) (hl : 16 ≤ a.length - h)
    (b : List Byte) :
    extract (a ++ b) = candidateEvent (candidateAt a h) :: extract (a.drop (h + 16) ++ b) := by
  have hle : h + 16 ≤ a.length := by omega
  rw [extract_of_candidate (findMarker_append_of_some hf b) (by rw [List.length_append]; omega),
    candidateAt_append hle, List.drop_append_of_le_length hle]

/-- The source's pass: its events are the events of the bytes held, and it leaves no full frame (R82). -/
theorem sourcePass_extract (r : Reading) {n : Nat} {a : List Byte} (hn : a.length / 16 + 1 ≤ n) :
    (∀ b, extract (a ++ b) = (sourcePass r n a).2 ++ extract ((sourcePass r n a).1 ++ b)) ∧
      ∀ k, findMarker (sourcePass r n a).1 = some k → (sourcePass r n a).1.length - k < 16 := by
  induction n generalizing a with
  | zero => omega
  | succ n ih =>
    by_cases hl : a.length < 16
    · simp only [sourcePass, Config.frameLen, hl, if_true]
      exact ⟨fun b => rfl, fun k _ => by omega⟩
    · simp only [sourcePass, Config.frameLen, hl, if_false]
      cases hf : findMarker a with
      | none =>
        refine ⟨fun b => extract_trimmedBy r hf b, fun k hk => ?_⟩
        have hno : findMarker (trimmedBy r a) = none := by
          unfold trimmedBy
          cases hq : lastDollar a with
          | some q => exact findMarker_drop_none hf q
          | none => cases r.keepWithoutDollar <;> simp [hf, findMarker]
        simp only [hno] at hk
        exact absurd hk (by simp)
      | some h =>
        by_cases hw : a.length - h < 16
        · simp only [hw, if_true]
          refine ⟨fun b => rfl, fun k hk => ?_⟩
          rw [hf] at hk
          cases hk
          exact hw
        · simp only [hw, if_false]
          obtain ⟨h1, h2⟩ := ih (a := a.drop (h + 16)) (by rw [List.length_drop]; omega)
          refine ⟨fun b => ?_, h2⟩
          rw [extract_append_of_candidate hf (by omega), h1]
          rfl

end Sys2Proof.Machine
end

