-- ==== Sys2Proof/Tests/Slice0.lean ====
section
/-! SUPPORT. Tests. Expected values come from spec/95_test_vectors.md (the vector is named at each test) or from a word
written out by hand from spec/30_encoding.md. The witnesses show, for each obligation that has hypotheses, concrete
values that meet them together. -/

namespace Sys2Proof.Tests

open Sys2Proof.Machine

/-! ## Helpers -/

/-- Frame F0 of spec/95_test_vectors.md. -/
def f0 : List Byte := [0x24, 0x44, 0x43, 0, 0, 0, 0, 0, 0, 0, 0, 0, 0, 0, 0x4E, 0xA2]

/-- F0 with the wrong checksum `4E A3` (V2.2.5). -/
def f0bad : List Byte := [0x24, 0x44, 0x43, 0, 0, 0, 0, 0, 0, 0, 0, 0, 0, 0, 0x4E, 0xA3]

/-- Frame F1. -/
def f1 : List Byte := [0x24, 0x44, 0x43, 1, 2, 3, 4, 5, 6, 7, 8, 9, 10, 11, 0xBC, 0x28]

/-- Frame F3: its payload holds the marker. -/
def f3 : List Byte := [0x24, 0x44, 0x43, 0x10, 0x24, 0x44, 0x43, 0x20, 0, 0, 0, 0, 0, 0x30, 0x2A, 0x91]

/-- Bytes of noise. -/
def noise (n : Nat) : List Byte := List.replicate n 0x11

/-- The reset state of a build, holding some bytes. -/
def holding (accCap : Nat) (acc : List Byte) : State := (State.resetWith accCap).withAcc acc

/-- The next state, if there is one. -/
def nextOf {α : Type} : Host.Outcome α Fault Refusal → Option α
  | .next s => some s
  | .fault _ => none
  | .refused _ => none

/-- A block at power-up: any values at all, before the first `rst`. -/
def powerUp : State := { holding 16 (noise 3) with sampleData := 7, resetDone := false }

/-- The architectural state after one command. -/
def after (i : Instr) (s : State) : Option (List Byte × Bool × Bool × SampleBus) := (nextOf (exec i s)).map arch

theorem holding_inv {c : Nat} {acc : List Byte} (hc : 16 ≤ c) (hl : acc.length < 16) : StateInv (holding c acc) :=
  ⟨hc, accInv_of_short (by show acc.length ≤ c; omega) hl⟩

/-- A full accumulator of the smallest build, the lone-`'$'` case (V2.4.1), has the reachable form. -/
theorem lone_dollar_inv : StateInv (holding 16 (0x24 :: noise 15)) := by
  refine ⟨le_refl _, le_refl _, fun _ h hs => ?_, fun _ _ => ⟨rfl, fun i hi hl => ?_⟩⟩
  · exact absurd (hs.symm.trans (show findMarker (0x24 :: noise 15) = none by decide)) (by simp)
  · have : ∀ i, 1 ≤ i → i < 16 → (0x24 :: noise 15)[i]? ≠ some Config.dollar := by decide
    exact this i hi hl

/-! ## WellFormed: each check refuses an ill-formed term -/

theorem test_wf_reserved_does_not_conform : (Instr.reserved 0).conforming = false := by decide
theorem test_wf_noncanonical_nop : (Instr.nop 1).canonical = false := by decide
theorem test_wf_noncanonical_clear : (Instr.clear 0xA5).canonical = false := by decide
theorem test_wf_reserved_has_no_spelling : (Instr.reserved 0).canonical = false := by decide
theorem test_wf_imm8 : (Asm.push (.num 256)).error = some .imm8OutOfRange := by decide
theorem test_wf_char : (Imm.chr 'é').wf = false := by decide
theorem test_wf_word : (Asm.word 1024).error = some .wordOutOfRange := by decide
theorem test_wf_pushb_empty : (Asm.pushb []).error = some .noOperands := by decide
theorem test_wf_pushb_byte : (Asm.pushb [.num 1, .num 300]).error = some .imm8OutOfRange := by decide
theorem test_wf_pushs : (Asm.pushs ['$', 'é']).error = some .notAscii := by decide
theorem test_wf_frame_length : (Asm.frame [.num 1]).error = some .payloadLength := by decide
theorem test_wf_frame_byte : (Asm.frame (List.replicate 11 (.num 256))).error = some .imm8OutOfRange := by decide
theorem test_wf_framex_length : (Asm.framex [] 0).error = some .payloadLength := by decide
theorem test_wf_framex_byte : (Asm.framex (List.replicate 11 (.num 256)) 0).error = some .imm8OutOfRange := by decide
theorem test_wf_framex_checksum : (Asm.framex (List.replicate 11 (.num 0)) 65536).error = some .checksumOutOfRange := by
  decide
theorem test_wf_line : parseLine "PUSH".toList = .error .badLine := by decide +kernel
theorem test_wf_accepts : (Asm.framex (List.replicate 11 (.num 255)) 65535).wf = true := by decide

/-! ## Decoding: words written out from R42 to R47 and section 2.10's words -/

theorem test_decode_nop : decode 0b0000000000 = .ok (.nop 0) := by decide
theorem test_decode_nop_noncanonical : decode 0b0011111111 = .ok (.nop 0xFF) := by decide
theorem test_decode_push : decode 0b0100100100 = .ok (.push 0x24) := by decide
theorem test_decode_clear : decode 0b1010100101 = .ok (.clear 0xA5) := by decide
theorem test_decode_reserved : decode 0b1100000000 = .ok (.reserved 0) := by decide
theorem test_decode_too_wide : decode 1024 = .error (.widerThanCmd 1024) := by decide
theorem test_encode_push : encode (.push 0xA2) = 0x1A2 := by decide
theorem test_encode_clear : encode (.clear 0) = 0x200 := by decide
theorem test_table_word : decodeTableWord 16 0x1A2 = some (.push 0xA2) := by decide
/-- P1's last words stand for F1's last byte and an idle edge. -/
theorem test_fetch_word : (nextOf (step (State.reset.withFetchWord 16 0x128))).map arch =
    some ([0x28], false, false, 0) := by decide

/-! ## The codec and the assembler: section 2.1, 2.2 and P1, P3 of spec/95_test_vectors.md -/

theorem test_crcStep_dollar : crcStep 0xFFFF 0x24 = 0x8516 := by decide +kernel
theorem test_checksum_marker : checksum [0x24, 0x44, 0x43] = 0x2F35 := by decide +kernel
theorem test_checksum_zeros : checksum (List.replicate 14 0) = 0xA96A := by decide +kernel
theorem test_checksum_ones : checksum (List.replicate 14 0xFF) = 0xC321 := by decide +kernel
theorem test_validate_f3 : validateAndDecode f3 = .ok [0x10, 0x24, 0x44, 0x43, 0x20, 0, 0, 0, 0, 0, 0x30] := by
  decide +kernel
theorem test_validate_bad : validateAndDecode f0bad = .checksumMismatch := by decide +kernel
theorem test_validate_swapped : validateAndDecode (f0.take 14 ++ [0xA2, 0x4E]) = .checksumMismatch := by decide +kernel
theorem test_validate_short : validateAndDecode (f0.take 15) = .preconditionViolated := by decide
theorem test_pack_f1 : pack (payloadOf f1) = 0x0B0A090807060504030201 := by decide
theorem test_frame_f1 : frameOf [1, 2, 3, 4, 5, 6, 7, 8, 9, 10, 11] = f1 := by decide +kernel
theorem test_text_frame : assembleLine "FRAME 0x01,0x02,0x03,0x04,0x05,0x06,0x07,0x08,0x09,0x0A,0x0B".toList =
    .ok (pushWords f1) := by decide +kernel
theorem test_text_framex : assembleLine "FRAMEX 0,0,0,0,0,0,0,0,0,0,0, 0x4EA3   ; F0 with a wrong checksum".toList =
    .ok (pushWords f0bad) := by decide +kernel
theorem test_text_lines : assembleProgram ["PUSHB '$', 0x44,67".toList, "; only a comment".toList, "IDLE 2".toList,
    "CLEAR".toList, "PUSHS \"$DC\"".toList, ".word 0x3FF".toList] =
    .ok [0x124, 0x144, 0x143, 0x000, 0x000, 0x200, 0x124, 0x144, 0x143, 0x3FF] := by decide +kernel
theorem test_warns_reserved : warns (.word 0x300) = true ∧ warns (.word 0x2FF) = false := by decide

/-! ## One step of each command -/

/-- Section 2.10: a NOP after P1 ends the pulse and holds the sample. -/
theorem test_nop : after (.nop 0) (raiseSample 0x0B0A090807060504030201 (holding 32 [])) =
    some ([], false, false, 0x0B0A090807060504030201) := by decide
/-- R67's example, P1's form: the byte that completes F1. -/
theorem test_push_validates : after (.push 0x28) (holding 32 (f1.take 15)) =
    some ([], true, false, 0x0B0A090807060504030201) := by decide +kernel
/-- V2.4.3: a full accumulator drops its lone `'$'`, takes the new one, and is trimmed to it. -/
theorem test_push_full : after (.push 0x24) (holding 16 (0x24 :: noise 15)) = some ([0x24], false, false, 0) := by
  decide
/-- P3, edge 41: CLEAR in the middle of a frame holds the sample. -/
theorem test_clear : after (.clear 0xA5) ((holding 32 (f0.take 8)).withSampleData 7) = some ([], false, false, 7) := by
  decide
/-- Section 2.10, edge 7: the hardware does what a NOP does; the run is marked. -/
theorem test_reserved : after (.reserved 0) (holding 32 (f0.take 3)) = some (f0.take 3, false, false, 0) ∧
    (nextOf (exec (.reserved 0) (holding 32 []))).map State.reservedSeen = some true := by decide
/-- Section 2.10: a model refuses the run, also where a reset follows (R87). -/
theorem test_reserved_run_refused : runEvents (driven State.reset (wordEdges [0x124, 0x300])) = .refused .reservedInRun ∧
    afterEdges 2 (driven State.reset [commandEdge (.reserved 0), rstEdge 0]) = .refused .reservedInRun := ⟨rfl, rfl⟩
/-- Section 2.10's first two edges: a run without one is observed. -/
theorem test_run_observed : nextOf (observed (driven State.reset (wordEdges [0x000, 0x124]))) =
    some [⟨false, 0, false, 0⟩, ⟨false, 0, false, 1⟩] := by decide
/-- R107: a run that does not start with `rst` is refused. -/
theorem test_power_up_refused : runEvents (driven powerUp (wordEdges [0x124])) = .refused .beforeReset ∧
    afterEdges 1 (driven powerUp (wordEdges [0x200])) = .refused .beforeReset ∧
    step (driven powerUp [rstEdge 0x124]) = .next (State.resetWith 16) := ⟨rfl, rfl, rfl⟩
/-- Section 2.11: `rst` with `0x128` on `cmd` after P1's first 15 words. -/
theorem test_rst : (nextOf (step (driven (holding 32 (f1.take 15)) [rstEdge 0x128]))).map arch =
    some ([], false, false, 0) := by decide

/-! ## Witnesses: the hypotheses of each obligation are met -/

theorem witness_OpcodeTableDecidesEveryWord :
    decodeWord 0x000 = .nop 0 ∧ decodeWord 0x0FF = .nop 0xFF ∧ decodeWord 0x100 = .push 0 ∧
    decodeWord 0x1FF = .push 0xFF ∧ decodeWord 0x200 = .clear 0 ∧ decodeWord 0x2FF = .clear 0xFF ∧
    decodeWord 0x300 = .reserved 0 ∧ decodeWord 0x3FF = .reserved 0xFF := by decide

theorem witness_DataFieldIsThePushByteOnly :
    opField 0x1A2 = 0b01#2 ∧ (opField 0x000 = opField 0x0FF ∧ opField 0x000 ≠ 0b01#2) ∧
    (opField 0x200 = opField 0x2A5 ∧ opField 0x200 ≠ 0b01#2) ∧
    (opField 0x300 = opField 0x3FF ∧ opField 0x300 ≠ 0b01#2) := by decide

theorem witness_StepRunsTheDecodedCommand :
    (driven State.reset [commandEdge (.push 0x24)]).pending = [commandEdge (.push 0x24)] ∧
    (commandEdge (.push 0x24)).rst = false ∧ decodeWord (commandEdge (.push 0x24)).cmd = .push 0x24 ∧
    State.reset.resetDone = true := by decide

theorem witness_ResetActionTakesPriority :
    (driven (holding 32 (f1.take 15)) [rstEdge 0x128]).pending = [rstEdge 0x128] ∧ (rstEdge 0x128).rst = true := by
  decide

theorem witness_HoldingResetIsOneReset :
    ([0x128] : List Cmd) ≠ [] ∧ ([0x128, 0x1A2] : List Cmd) ≠ [] ∧ (holding 16 (f0.take 8)).reservedSeen = false := by
  decide

theorem witness_EveryEdgeCompletes :
    (driven State.reset [commandEdge (.nop 0)]).pending = [commandEdge (.nop 0)] ∧ State.reset.resetDone = true ∧
    (rstEdge 0x3FF).rst = true ∧ startsWithReset (driven powerUp [rstEdge 0, commandEdge (.nop 0)]) = true ∧
    Conforming (driven powerUp [rstEdge 0x3FF, commandEdge (.nop 0)]) :=
  ⟨by decide, rfl, rfl, rfl, rfl, rfl, by decide⟩

/-- R107: before the first `rst` a word is refused, and with `rst` the state is the reset state. -/
theorem witness_RunsNotStartedByResetRefused :
    (powerUp.resetDone = false ∧ (commandEdge (.push 0x24)).rst = false) ∧ powerUp.reservedSeen = false ∧
    (nextOf (step (driven powerUp [rstEdge 0x124]))).isSome = true := by decide

/-- Both premises: a run already marked, and one with a reserved word at its first edge or past a reset. -/
theorem witness_RunsWithAReservedWordRefused :
    (State.reset.withReservedSeen.reservedSeen = true ∧ [rstEdge 0] ≠ []) ∧
    (commandEdge (.reserved 0) ∈ [rstEdge 0, commandEdge (.reserved 0)] ∧ (commandEdge (.reserved 0)).rst = false ∧
      opField (commandEdge (.reserved 0)).cmd = 0b11#2) ∧
    startsWithReset (driven State.reset.withReservedSeen [rstEdge 0]) = true ∧
    startsWithReset (driven powerUp [rstEdge 0, commandEdge (.reserved 0)]) = true ∧
    (nextOf (step (driven State.reset [commandEdge (.reserved 0)]))).isSome = true := by decide

theorem witness_ClearAndResetDiffer :
    (driven State.reset [rstEdge 0x200]).pending = [rstEdge 0x200] ∧ (rstEdge 0x200).rst = true ∧
    (driven State.reset [commandEdge (.clear 0xA5)]).pending = [commandEdge (.clear 0xA5)] ∧
    (commandEdge (.clear 0xA5)).rst = false ∧ decodeWord (commandEdge (.clear 0xA5)).cmd = .clear 0xA5 ∧
    (driven State.reset [commandEdge (.clear 0xA5)]).resetDone = true := by decide

theorem witness_NopAndClearIdempotentPushNot :
    exec (.nop 0) State.reset = .next State.reset ∧ exec (.clear 0) State.reset = .next State.reset ∧
    (holding 16 (noise 13)).acc.length < 14 ∧ 16 ≤ (holding 16 (noise 13)).accCap := ⟨rfl, rfl, by decide, by decide⟩

theorem witness_ChecksumPrefixAndAffineLaws : (f0.take 14).length = (f1.take 14).length := by decide

theorem witness_ReceivedChecksumBigEndian : f0[14]? = some (0x4E : Byte) ∧ f0[15]? = some (0xA2 : Byte) := by decide

theorem witness_ValidatesExactlyWellFormedFrames :
    (f0.length = 16 ∧ slice f0 0 3 = [0x24, 0x44, 0x43] ∧ checksum (slice f0 0 14) = crcRx f0 ∧
      wellFormedFrame f0 = true) ∧
    (f0bad.length = 16 ∧ slice f0bad 0 3 = [0x24, 0x44, 0x43] ∧ checksum (slice f0bad 0 14) ≠ crcRx f0bad ∧
      wellFormedFrame f0bad = false) ∧
    (f0[14]? = some 0x4E ∧ f0[15]? = some 0xA2) := by decide +kernel

theorem witness_CandidateMeetsPrecondition :
    (findMarker (noise 13 ++ f0) = some 13 ∧ 16 ≤ (noise 13 ++ f0).length - 13) ∧
    validateAndDecode (f0.take 15) = .preconditionViolated ∧
    validateAndDecode (noise 16) = .preconditionViolated := by decide

theorem witness_ChannelLanesOfTheBus :
    ((payloadOf f1).length = 11 ∧ (0 < 11 ∧ 10 < 11) ∧ f1.length = 16) ∧
    StateInv (holding 16 (f1.take 15)) ∧
    (nextOf (exec (.push 0x28) (holding 16 (f1.take 15)))).map State.sampleValid = some true ∧
    findMarker (f1.take 15 ++ [0x28]) = some 0 :=
  ⟨by decide, holding_inv (by decide) (by decide), by decide +kernel, by decide⟩

theorem witness_AnyOneByteCorruptionRejected :
    wellFormedFrame f1 = true ∧ (3 ≤ 3 ∧ 3 < 16 ∧ f1[3]? ≠ some (0 : Byte)) ∧
    (3 ≤ 15 ∧ 15 < 16 ∧ f1[15]? ≠ some (0x29 : Byte)) := by decide +kernel

theorem witness_SearchFindsTheFirstMarker :
    findMarker f3 = some 0 ∧ findMarker (f3.drop 1) = some 3 ∧ findMarker (noise 16) = none := by decide

theorem witness_MarkersNeverOverlap :
    startsWithMarker ((Config.marker ++ Config.marker).drop 0) = true ∧
    startsWithMarker ((Config.marker ++ Config.marker).drop 3) = true ∧ 0 < 3 ∧
    findMarkerFrom (0 + 1) (Config.marker ++ Config.marker) = some 3 := by decide

theorem witness_LengthGateStopsThePass : (holding 32 (noise 15)).acc.length < 16 := by decide

/-- V2.3.3 and V2.3.2: with a last `'$'` at 5, and with none. -/
theorem witness_TrimKeepsFromTheLastDollar :
    (16 ≤ (noise 5 ++ 0x24 :: noise 10).length ∧ findMarker (noise 5 ++ 0x24 :: noise 10) = none ∧
      lastDollar (noise 5 ++ 0x24 :: noise 10) = some 5) ∧
    (16 ≤ (noise 16).length ∧ findMarker (noise 16) = none ∧ lastDollar (noise 16) = none) := by decide

theorem witness_WaitRemovesNothing :
    findMarker (noise 1 ++ f0.take 15) = some 1 ∧ (noise 1 ++ f0.take 15).length - 1 < 16 := by decide

theorem witness_CandidateConsumedEitherWay :
    (findMarker f0 = some 0 ∧ 16 ≤ f0.length - 0 ∧
      validateAndDecode (candidateAt f0 0) = .ok (List.replicate 11 0)) ∧
    (findMarker f0bad = some 0 ∧ 16 ≤ f0bad.length - 0 ∧
      validateAndDecode (candidateAt f0bad 0) = .checksumMismatch) := by decide +kernel

theorem witness_PassIterationsBounded : (holding 32 f0).acc.length / 16 + 1 ≤ 2 := by decide

theorem witness_PushMakesRoomAppendsAndPasses :
    (holding 16 (0x24 :: noise 15)).acc.length = (holding 16 (0x24 :: noise 15)).accCap ∧
    (holding 16 (noise 15)).acc.length ≠ (holding 16 (noise 15)).accCap := by decide

/-- V2.3.6 at its first waiting edge: no sample, and a marker with fewer than 16 bytes from it. -/
theorem witness_PushCompletesWithItsFrame :
    (nextOf (exec (.push 0x4E) (holding 16 (0x11 :: f0.take 14)))).map (fun t => (t.sampleValid, findMarker t.acc)) =
      some (false, some 1) := by decide +kernel

theorem witness_ReachableFormAtReset : 16 ≤ (State.resetWith 16).accCap ∧ (State.resetWith 16).acc = [] := by decide

/-- The five outcomes: V2.3.1, V2.3.2, V2.3.6 at its first waiting edge, P1 edge 16 and P3 edge 16. -/
theorem witness_PushHasOneOfFiveOutcomes :
    (StateInv (holding 16 (noise 14)) ∧ (noise 14 ++ [0x11]).length < 16) ∧
    (StateInv (holding 16 (noise 15)) ∧ 16 ≤ (noise 15 ++ [0x11]).length ∧ findMarker (noise 15 ++ [0x11]) = none) ∧
    (StateInv (holding 16 (0x11 :: f0.take 14)) ∧ findMarker (0x11 :: f0.take 14 ++ [0x4E]) = some 1 ∧
      (0x11 :: f0.take 14 ++ [0x4E] : List Byte).length - 1 ≤ 15) ∧
    (StateInv (holding 16 (f0.take 15)) ∧ findMarker (f0.take 15 ++ [0xA2]) = some 0 ∧
      15 < (f0.take 15 ++ [0xA2]).length - 0 ∧
      validateAndDecode (candidateAt (f0.take 15 ++ [0xA2]) 0) = .ok (List.replicate 11 0)) ∧
    (StateInv (holding 16 (f0.take 15)) ∧ findMarker (f0.take 15 ++ [0xA3]) = some 0 ∧
      validateAndDecode (candidateAt (f0.take 15 ++ [0xA3]) 0) = .checksumMismatch) ∧
    StateInv (holding 16 (0x24 :: noise 15)) :=
  ⟨⟨holding_inv (by decide) (by decide), by decide⟩, ⟨holding_inv (by decide) (by decide), by decide, by decide⟩,
    ⟨holding_inv (by decide) (by decide), by decide, by decide⟩,
    ⟨holding_inv (by decide) (by decide), by decide, by decide, by decide +kernel⟩,
    ⟨holding_inv (by decide) (by decide), by decide, by decide +kernel⟩, lone_dollar_inv⟩

/-- The outcomes and their signals: V2.3.1, V2.3.2, V2.3.6 at its first waiting edge, P1 edge 16 and P3 edge 16. -/
theorem witness_SourceSignalsNameTheOutcomes :
    (pushOutcome 0x11 (holding 16 (noise 14)) = .insufficient ∧ pushOutcome 0x11 (holding 16 (noise 15)) = .trimmed ∧
      pushOutcome 0x4E (holding 16 (0x11 :: f0.take 14)) = .waiting ∧
      pushOutcome 0xA2 (holding 16 (f0.take 15)) = .validated ∧
      pushOutcome 0xA3 (holding 16 (f0.take 15)) = .rejected) ∧
    StateInv (holding 16 (f0.take 15)) := ⟨by decide +kernel, holding_inv (by decide) (by decide)⟩

theorem witness_PulsesRaisedOnlyByPush :
    (driven (holding 16 (f0.take 15)) [commandEdge (.push 0xA3)]).pending = [commandEdge (.push 0xA3)] ∧
    (nextOf (step (driven (holding 16 (f0.take 15)) [commandEdge (.push 0xA3)]))).map State.frameErr = some true ∧
    StateInv (holding 16 (f0.take 15)) := ⟨by decide, by decide +kernel, holding_inv (by decide) (by decide)⟩

theorem witness_SampleDataHoldsTheLastSample :
    ((nextOf (step (driven (holding 16 (f1.take 15)) [commandEdge (.push 0x28)]))).map State.sampleData =
      some 0x0B0A090807060504030201 ∧ (holding 16 (f1.take 15)).sampleData = 0) ∧
    ((commandEdge (.push 0x24)).rst = false ∧
      edgeConforming (commandEdge (.push 0x24)) = true) := by decide +kernel

theorem witness_ReachableFormKeptByEveryStep :
    StateInv (driven (holding 16 (0x24 :: noise 15)) [commandEdge (.push 0x24)]) ∧
    (nextOf (step (driven (holding 16 (0x24 :: noise 15)) [commandEdge (.push 0x24)]))).isSome = true :=
  ⟨lone_dollar_inv, by decide⟩

theorem witness_ReachableFormInEveryRun :
    16 ≤ 16 ∧ (∀ e, e ∈ [commandEdge (.push 0x24), rstEdge 0x3FF] → edgeConforming e = true) ∧
    (nextOf (afterEdges 2 (driven (State.resetWith 16) [commandEdge (.push 0x24), rstEdge 0x3FF]))).isSome = true := by
  decide

theorem witness_PulsesNeverTogether :
    16 ≤ 16 ∧ edgeConforming (commandEdge (.push 0x24)) = true ∧
    StateInv (driven (holding 16 (f0.take 15)) [commandEdge (.push 0xA2)]) ∧
    (nextOf (step (driven (holding 16 (f0.take 15)) [commandEdge (.push 0xA2)]))).map State.sampleValid = some true :=
  ⟨le_refl _, by decide, holding_inv (by decide) (by decide), by decide +kernel⟩

theorem witness_ConformanceOfARunKept :
    Conforming (driven State.reset [commandEdge (.push 0x24), rstEdge 0x3FF]) ∧
    (nextOf (step (driven State.reset [commandEdge (.push 0x24), rstEdge 0x3FF]))).isSome = true ∧
    (driven State.reset [commandEdge (.nop 0)]).withReservedSeen.reservedSeen = true ∧
    (nextOf (step (driven State.reset [commandEdge (.nop 0)]).withReservedSeen)).isSome = true :=
  ⟨⟨rfl, rfl, by decide⟩, by decide, rfl, by decide⟩

theorem witness_LevelPortShowsTheLength : StateInv (holding 16 (0x24 :: noise 15)) ∧ 16 ≤ 16 :=
  ⟨lone_dollar_inv, le_refl _⟩

theorem witness_StreamEventsAreExtract :
    16 ≤ 16 ∧ (∀ e, e ∈ [commandEdge (.push 0x24), commandEdge (.nop 0)] → isPushOrNop e = true) ∧
    pushedBytes [commandEdge (.push 0x24), commandEdge (.nop 0)] = [0x24] := by decide

theorem witness_ChunkCallsRaiseTheSourcesEvents : 16 ≤ (State.resetWith 16).accCap := by decide

theorem witness_ClearAndResetStartAfresh :
    (16 ≤ (holding 16 (f0.take 8)).accCap ∧ (holding 16 (f0.take 8)).reservedSeen = false ∧
      (holding 16 (f0.take 8)).resetDone = true) ∧
    (16 ≤ powerUp.accCap ∧ powerUp.reservedSeen = false) := by decide

theorem witness_BackToBackFramesRoundTrip :
    16 ≤ 16 ∧ ∀ p, p ∈ [payloadOf f0, payloadOf f1] → p.length = 11 := by decide

theorem witness_ResynchronisesAfterGarbage :
    16 ≤ 16 ∧ (payloadOf f1).length = 11 ∧ findMarker (noise 14 ++ [0x24, 0x44]) = none := by decide

theorem witness_RejectionSkipsTheWholeCandidate :
    16 ≤ 16 ∧ f0bad.length = 16 ∧ slice f0bad 0 3 = [0x24, 0x44, 0x43] ∧ wellFormedFrame f0bad = false := by
  decide +kernel

theorem witness_FramePseudoInstructions :
    (List.replicate 11 (Imm.chr '$')).length = 11 ∧ (∀ b, b ∈ List.replicate 11 (Imm.chr '$') → b.wf = true) ∧
    (∀ b, b ∈ List.replicate 11 (Imm.num 255) → b.wf = true) ∧ 65535 < 65536 := by decide

theorem witness_AssemblerLines :
    255 < 256 ∧ 256 ≤ 256 ∧ ('~').toNat < 128 ∧ 128 ≤ ('é').toNat ∧ [Imm.num 255, .chr '$'] ≠ [] ∧
    (∀ b, b ∈ [Imm.num 255, .chr '$'] → b.wf = true) ∧ (∀ c, c ∈ ['$', '~'] → c.toNat < 128) ∧ 1023 < 1024 :=
  ⟨by decide, by decide, by decide, by decide, by decide, by decide, List.forall_mem_cons.mpr ⟨by decide, by simp⟩, by decide⟩

end Sys2Proof.Tests
end

section
/-! The level port (R8, R21). -/

namespace Sys2Proof.Machine

/-- A reachable accumulator fits the capacity of its build (R28). -/
theorem StateInv.acc_length_le {s : State} (hi : StateInv s) : s.acc.length ≤ s.accCap := by
  obtain ⟨-, hl, -, -⟩ := hi
  exact hl

/-- The level port of a reachable state carries `len(acc)` (R21). -/
theorem StateInv.accLevel_toNat {s : State} (hi : StateInv s) : (accLevel s).toNat = s.acc.length :=
  Machine.accLevel_toNat hi.acc_length_le

/-- The empty accumulator fits every capacity, so the level is 0 at reset of every build, legal or not. -/
theorem accLevel_resetWith_toNat (c : Nat) : (accLevel (State.resetWith c)).toNat = 0 :=
  accLevel_toNat (s := State.resetWith c) (Nat.zero_le c)

/-- Settles O41: the capacity bounds `len(acc)` in every reachable state, and the port is wide enough for every number
up to the capacity. -/
theorem levelPortShowsTheLength : Obligations.LevelPortShowsTheLength := by
  refine ⟨fun s hi => ?level, accLevel_resetWith_toNat, fun c hc => ?width, ?default⟩
  case level => exact ⟨hi.accLevel_toNat, hi.accLevel_toNat⟩
  case width => exact accLevelW_eq_clog (by omega)
  case default => decide

end Sys2Proof.Machine
end

section
/-! The two pulses (R18, R19), and the reachable form of the accumulator over a run (R28). -/

namespace Sys2Proof.Machine

/-! ## One edge -/

/-- Everything an edge that completes can do: reset the block, or perform its word once there has been an `rst` (R105,
R107, R113). -/
theorem step_cases {s t : State} {e : Edge} {rest : List Edge} (hp : s.pending = e :: rest) (ht : step s = .next t) :
    e.rst = true ∧ t = resetEdge (s.withPending rest) ∨
    e.rst = false ∧ s.resetDone = true ∧ exec (decodeWord e.cmd) (s.withPending rest) = .next t := by
  cases hr : e.rst with
  | true => exact .inl ⟨rfl, by simpa [step, hp, hr] using ht.symm⟩
  | false =>
    cases hd : s.resetDone with
    | true => exact .inr ⟨rfl, rfl, by simpa [step, hp, hr, hd] using ht⟩
    | false => simp [step_of_beforeReset hp hd hr] at ht

/-- With no edge to come no step completes, so a step that does has a first edge (R98). -/
theorem pending_of_step_next {s t : State} (ht : step s = .next t) : ∃ e rest, s.pending = e :: rest := by
  cases hp : s.pending with
  | nil => simp [step, hp] at ht
  | cons e rest => exact ⟨e, rest, rfl⟩

/-! ## The pulses -/

/-- Every command but PUSH leaves both pulses 0 (R18, R19). -/
theorem exec_pulses_or_push {i : Instr} {s t : State} (ht : exec i s = .next t) :
    (t.sampleValid = false ∧ t.frameErr = false) ∨ ∃ b, i = .push b := by
  cases i with
  | push b => exact .inr ⟨b, rfl⟩
  | nop d => cases ht; exact .inl ⟨rfl, rfl⟩
  | clear d => cases ht; exact .inl ⟨rfl, rfl⟩
  | reserved d => cases ht; exact .inl ⟨rfl, rfl⟩

/-- On a state with `sample_valid = 0` the event of a complete candidate raises it exactly when the candidate
validates (R76). -/
theorem raisedAt_sampleValid_iff {acc : List Byte} {h : Nat} {s : State} (hs : s.sampleValid = false)
    (hf : findMarker acc = some h) (hl : 16 ≤ acc.length - h) :
    (raisedAt acc h s).sampleValid = true ↔ ∃ p, validateAndDecode (candidateAt acc h) = .ok p := by
  rw [validateAndDecode_candidateAt hf hl, raisedAt]
  split
  · simp [raiseSample_eq]
  · simp [raiseMismatch_eq, hs]

/-- On a state with `frame_err = 0` the event of a complete candidate raises it exactly when the candidate is a
mismatch (R77). -/
theorem raisedAt_frameErr_iff {acc : List Byte} {h : Nat} {s : State} (hs : s.frameErr = false)
    (hf : findMarker acc = some h) (hl : 16 ≤ acc.length - h) :
    (raisedAt acc h s).frameErr = true ↔ validateAndDecode (candidateAt acc h) = .checksumMismatch := by
  rw [validateAndDecode_candidateAt hf hl, raisedAt]
  split
  · simp [raiseSample_eq, hs]
  · simp [raiseMismatch_eq]

/-- From a reachable state a PUSH meets no complete candidate and leaves both pulses 0, or raises the event of the one
it meets on a state with both pulses 0 (R81). -/
theorem execPush_quiet_or_raised {b : Byte} {s t : State} (hi : StateInv s) (ht : execPush b s = .next t) :
    (t.sampleValid = false ∧ t.frameErr = false ∧
      ∀ h, findMarker (pushedAcc b s) = some h → (pushedAcc b s).length - h < 16) ∨
    ∃ h, findMarker (pushedAcc b s) = some h ∧ 16 ≤ (pushedAcc b s).length - h ∧
      t = (raisedAt (pushedAcc b s) h (s.withPulses false false)).withAcc [] := by
  obtain ⟨hl, h⟩ | ⟨-, hf, h⟩ | ⟨-, ⟨k, hf, hk⟩, h⟩ | ⟨k, hf, hk, h⟩ := execPush_cases (b := b) hi <;>
    cases h.symm.trans ht
  · exact .inl ⟨rfl, rfl, fun _ _ => by omega⟩
  · exact .inl ⟨rfl, rfl, by simp [hf]⟩
  · refine .inl ⟨rfl, rfl, fun _ hm => ?_⟩
    cases hf.symm.trans hm
    omega
  · exact .inr ⟨k, hf, hk.ge, rfl⟩

/-- From a reachable state a PUSH leaves `sample_valid = 1` exactly when it meets a complete candidate that validates
(R18, R76). -/
theorem execPush_sampleValid_iff {b : Byte} {s t : State} (hi : StateInv s) (ht : execPush b s = .next t) :
    t.sampleValid = true ↔ ∃ h p, findMarker (pushedAcc b s) = some h ∧ 16 ≤ (pushedAcc b s).length - h ∧
      validateAndDecode (candidateAt (pushedAcc b s) h) = .ok p := by
  obtain ⟨hv, -, hno⟩ | ⟨k, hf, hl, rfl⟩ := execPush_quiet_or_raised hi ht
  · simp only [hv, Bool.false_eq_true, false_iff]
    rintro ⟨h, -, hf, hl, -⟩
    exact absurd (hno h hf) (Nat.not_lt.mpr hl)
  · rw [State.withAcc_sampleValid, raisedAt_sampleValid_iff rfl hf hl]
    simp [hf, hl]

/-- From a reachable state a PUSH leaves `frame_err = 1` exactly when it meets a complete candidate that is a mismatch
(R19, R77). -/
theorem execPush_frameErr_iff {b : Byte} {s t : State} (hi : StateInv s) (ht : execPush b s = .next t) :
    t.frameErr = true ↔ ∃ h, findMarker (pushedAcc b s) = some h ∧ 16 ≤ (pushedAcc b s).length - h ∧
      validateAndDecode (candidateAt (pushedAcc b s) h) = .checksumMismatch := by
  obtain ⟨-, hv, hno⟩ | ⟨k, hf, hl, rfl⟩ := execPush_quiet_or_raised hi ht
  · simp only [hv, Bool.false_eq_true, false_iff]
    rintro ⟨h, hf, hl, -⟩
    exact absurd (hno h hf) (Nat.not_lt.mpr hl)
  · rw [State.withAcc_frameErr, raisedAt_frameErr_iff rfl hf hl]
    simp [hf, hl]

/-- Settles O34: only a PUSH can leave a pulse at 1, and from a reachable state its outcome is fixed by the complete
candidate it meets. -/
theorem pulsesRaisedOnlyByPush : Obligations.PulsesRaisedOnlyByPush := by
  refine ⟨fun s t e rest hp ht hpulse => ?edge, fun s t b hi ht acc hacc => ?push, fun c => ⟨rfl, rfl⟩⟩
  case edge =>
    obtain ⟨-, rfl⟩ | ⟨hr, -, hx⟩ := step_cases hp ht
    · simp [resetEdge_eq, State.resetWith] at hpulse
    · obtain ⟨hv, hf⟩ | hb := exec_pulses_or_push hx
      · simp [hv, hf] at hpulse
      · exact ⟨hr, hb⟩
  case push =>
    subst hacc
    exact ⟨execPush_sampleValid_iff hi ht, execPush_frameErr_iff hi ht⟩

/-! ## The reachable form -/

/-- An empty accumulator has the reachable form in every legal build (R28). -/
theorem stateInv_of_acc_nil {s : State} (hc : Config.accCapMin ≤ s.accCap) (ha : s.acc = []) : StateInv s :=
  ⟨hc, accInv_of_short (by simp [ha]) (by simp [ha])⟩

/-- Every command keeps the reachable form (R28). -/
theorem exec_inv {i : Instr} {s t : State} (hi : StateInv s) (ht : exec i s = .next t) : StateInv t := by
  cases i with
  | nop d => cases ht; exact hi
  | clear d => cases ht; exact stateInv_of_acc_nil hi.1 rfl
  | reserved d => cases ht; exact hi
  | push b =>
    obtain ⟨u, hu, hinv⟩ := execPush_inv (b := b) hi
    cases hu.symm.trans ht
    exact hinv

/-- Every edge keeps the reachable form (R28). -/
theorem step_inv {s t : State} (hi : StateInv s) (ht : step s = .next t) : StateInv t := by
  obtain ⟨e, rest, hp⟩ := pending_of_step_next ht
  obtain ⟨-, rfl⟩ | ⟨-, -, hx⟩ := step_cases hp ht
  · exact stateInv_of_acc_nil hi.1 rfl
  · exact exec_inv (s := s.withPending rest) hi hx

/-- The first edge of a conforming run completes, and the run stays conforming (R46, R107). -/
theorem conforming_runStep {s : State} {e : Edge} {rest : List Edge} (hs : Conforming s) (hp : s.pending = e :: rest) :
    ∃ t, step s = .next t ∧ runStep s = .next t ∧ t.pending = rest ∧ t.accCap = s.accCap ∧ Conforming t := by
  obtain ⟨hstart, hseen, hedges⟩ := hs
  have hb : s.resetDone = true ∨ e.rst = true := by simpa [startsWithReset, hp] using hstart
  rw [hp, List.forall_mem_cons] at hedges
  obtain ⟨t, ht, hrun, htp, htc, htr, htd⟩ := runStep_of_conforming hp hb hseen hedges.1
  exact ⟨t, ht, hrun, htp, htc, by simp [startsWithReset, htd], htr, by rw [htp]; exact hedges.2⟩

/-- The induction over a conforming run: it completes, and what holds at its start and is kept by every edge holds at
its end. -/
theorem conforming_afterEdges_induction {P : State → Prop} (keep : ∀ s t, P s → step s = .next t → P t) {s : State}
    (hs : Conforming s) (h0 : P s) :
    ∃ t, afterEdges s.pending.length s = .next t ∧ t.pending = [] ∧ t.accCap = s.accCap ∧ P t := by
  generalize hp : s.pending = es
  induction es generalizing s with
  | nil => exact ⟨s, rfl, hp, rfl, h0⟩
  | cons e rest ih =>
    obtain ⟨t, ht, hrun, htp, htc, hconf⟩ := conforming_runStep hs hp
    obtain ⟨u, hu, hup, huc, hPu⟩ := ih hconf (keep s t h0 ht) htp
    exact ⟨u, by rw [List.length_cons, afterEdges, hrun, thenNext_next, hu], hup, huc.trans htc, hPu⟩

/-- Settles O38: the reset state has the reachable form and every edge keeps it. -/
theorem reachableFormInEveryRun : Obligations.ReachableFormInEveryRun := by
  intro c es hc hes
  have hconf : Conforming (driven (State.resetWith c) es) := ⟨rfl, rfl, hes⟩
  have hinit : StateInv (driven (State.resetWith c) es) := stateInv_of_acc_nil hc rfl
  obtain ⟨t, ht, -, htc, -, hinv⟩ := conforming_afterEdges_induction (fun _ _ => step_inv) hconf hinit
  rw [htc] at hinv
  exact ⟨t, ht, hinv⟩

end Sys2Proof.Machine
end

section
/-! The byte order of the received checksum (R31), and the lanes of the output bus (R20, R32). -/

namespace Sys2Proof.Machine

/-! ## The received checksum -/

/-- A byte above a byte, zero extended, shifted and joined, is their concatenation (R11, R12). -/
theorem zext16_shiftLeft_or_zext16 (hi lo : Byte) : (zext16 hi <<< 8) ||| zext16 lo = hi ++ lo := by
  ext j hj
  rw [BitVec.getElem_append]
  by_cases h : j < 8
  · simp [zext16, h]
  · have hlane : j - 8 < 8 := by omega
    simp [zext16, h, hlane, BitVec.getLsbD_of_ge lo j (by omega)]

/-- The number that a byte above a byte writes. -/
theorem toNat_append_byte (hi lo : Byte) : (hi ++ lo).toNat = hi.toNat * 256 + lo.toNat := by
  rw [BitVec.toNat_append, ← Nat.shiftLeft_add_eq_or_of_lt lo.isLt, Nat.shiftLeft_eq]

/-- The default of `byteAt` is not read at a position that a sequence has. -/
theorem byteAt_of_getElem? {a : List Byte} {i : Nat} {x : Byte} (h : a[i]? = some x) : byteAt a i = x := by
  rw [byteAt, List.getD_eq_getElem?_getD, h, Option.getD_some]

/-- Settles O18: the two bytes of the checksum are concatenated, byte 14 above byte 15. -/
theorem receivedChecksumBigEndian : Obligations.ReceivedChecksumBigEndian := by
  intro cand hi lo h14 h15
  have hcat : crcRx cand = hi ++ lo := by
    rw [crcRx, byteAt_of_getElem? h14, byteAt_of_getElem? h15, zext16_shiftLeft_or_zext16]
  exact ⟨hcat, by rw [hcat, toNat_append_byte]⟩

/-! ## The lanes of the bus -/

/-- The first byte packed stands in the lowest lane (R32). -/
theorem channel_pack_zero (b : Byte) (p : List Byte) : channel (pack (b :: p)) 0 = b := by
  ext j hj
  have hbus : j < 88 := by omega
  simp [channel, pack, hj, hbus]

/-- The bytes behind the first one packed stand one lane higher, as far as the bus reaches (R32). -/
theorem channel_pack_succ (b : Byte) (p : List Byte) {i : Nat} (hi : i + 1 < 11) :
    channel (pack (b :: p)) (i + 1) = channel (pack p) i := by
  refine BitVec.eq_of_getLsbD_eq fun j hj => ?_
  have hbus : 8 * (i + 1) + j < 88 := by omega
  have hbelow : 8 * i + j < 88 := by omega
  have habove : ¬ 8 * (i + 1) + j < 8 := by omega
  have hlane : 8 * (i + 1) + j - 8 = 8 * i + j := by omega
  simp [channel, pack, hj, hbus, hbelow, habove, hlane, BitVec.getLsbD_of_ge b (8 * (i + 1) + j) (by omega)]

/-- Lane `i` of a packed sequence is its byte `i`, for every lane of the bus that the sequence fills (R32). -/
theorem getElem?_eq_channel_pack {p : List Byte} {i : Nat} (hp : i < p.length) (hi : i < 11) :
    p[i]? = some (channel (pack p) i) := by
  induction p generalizing i with
  | nil => simp at hp
  | cons b p ih =>
    cases i with
    | zero => rw [channel_pack_zero, List.getElem?_cons_zero]
    | succ i => rw [channel_pack_succ b p hi, List.getElem?_cons_succ, ih (Nat.lt_of_succ_lt_succ hp) (by omega)]

/-- A slice holds the bytes of the sequence from its first position on (R11). -/
theorem getElem?_slice (a : List Byte) {i j k : Nat} (hk : i + k < j) : (slice a i j)[k]? = a[i + k]? := by
  rw [slice, List.getElem?_take_of_lt (by omega), List.getElem?_drop]

/-- Lane `i` of a candidate's packed payload is byte `3 + i` of the candidate (R32, R63). -/
theorem getElem?_eq_channel_payload {cand : List Byte} {i : Nat} (hc : cand.length = 16) (hi : i < 11) :
    cand[3 + i]? = some (channel (pack (payloadOf cand)) i) := by
  have hlen : (payloadOf cand).length = 11 := by simp [payloadOf, slice, hc]
  rw [← getElem?_slice cand (i := 3) (j := 14) (by omega)]
  exact getElem?_eq_channel_pack (hlen ▸ hi) hi

/-- If the event of a candidate raises `sample_valid`, it packs the candidate's payload on the bus (R76). -/
theorem raisedAt_sampleData {acc : List Byte} {h : Nat} {s : State} (hs : s.sampleValid = false)
    (hv : (raisedAt acc h s).sampleValid = true) :
    (raisedAt acc h s).sampleData = pack (payloadOf (candidateAt acc h)) := by
  unfold raisedAt at hv ⊢
  split
  case isTrue => rw [raiseSample_eq, State.withSampleData_sampleData]
  case isFalse hc => simp [hc, raiseMismatch_eq, hs] at hv

/-- If a PUSH from a reachable state raises `sample_valid`, the marker it finds starts a complete candidate, whose
payload is packed on the bus (R76, R81). -/
theorem execPush_sampleData {b : Byte} {s t : State} {h : Nat} (hi : StateInv s) (ht : execPush b s = .next t)
    (hv : t.sampleValid = true) (hf : findMarker (pushedAcc b s) = some h) :
    16 ≤ (pushedAcc b s).length - h ∧ t.sampleData = pack (payloadOf (candidateAt (pushedAcc b s) h)) := by
  obtain ⟨hq, -, -⟩ | ⟨k, hk, hl, rfl⟩ := execPush_quiet_or_raised hi ht
  · simp [hq] at hv
  · cases hf.symm.trans hk
    exact ⟨hl, raisedAt_sampleData rfl hv⟩

/-- Settles O21: packing puts byte `i` in lane `i`, the payload starts at byte 3 of the candidate, and a validating
PUSH packs the payload of the candidate it finds. -/
theorem channelLanesOfTheBus : Obligations.ChannelLanesOfTheBus := by
  refine ⟨fun p i hp hi => ?sample, fun cand i hc hi => ?payload, fun b s t h i hinv ht hv acc hacc hf hi => ?bus⟩
  case sample => exact getElem?_eq_channel_pack (by omega) hi
  case payload => exact getElem?_eq_channel_payload hc hi
  case bus =>
    subst hacc
    obtain ⟨hl, hd⟩ := execPush_sampleData hinv ht hv hf
    have hcand := getElem?_slice (pushedAcc b s) (i := h) (j := h + 16) (k := 3 + i) (by omega)
    rw [hd, ← getElem?_eq_channel_payload (candidateAt_length hl) hi, Nat.add_assoc]
    exact hcand.symm

end Sys2Proof.Machine
end

section
/-! The command word's fields (R42), the rows of the opcode table (R45), and what the data field does (R44). -/

namespace Sys2Proof

/-! ## The fields of a word -/

/-- The `op` field is the word's number over 256 (R42). -/
theorem opField_toNat (w : Cmd) : (opField w).toNat = w.toNat / 256 := by
  have hw : w.toNat / 256 < 4 := by omega
  rw [opField, BitVec.extractLsb'_toNat, Nat.shiftRight_eq_div_pow, Nat.mod_eq_of_lt hw]

theorem dataField_eq_setWidth (w : Cmd) : dataField w = w.setWidth 8 :=
  (BitVec.setWidth_eq_extractLsb' (by decide)).symm

/-- The data field is the low byte of the word's number (R42). -/
theorem dataField_eq_ofNat (w : Cmd) : dataField w = BitVec.ofNat 8 (w.toNat &&& 0xFF) := by
  apply BitVec.eq_of_toNat_eq
  rw [dataField_eq_setWidth, BitVec.toNat_setWidth, BitVec.toNat_ofNat, Nat.and_two_pow_sub_one_eq_mod _ 8, Nat.mod_mod]

/-- The four operations (R43). -/
theorem opBits_cases (o : BitVec 2) : o = 0b00#2 ∨ o = 0b01#2 ∨ o = 0b10#2 ∨ o = 0b11#2 := by
  revert o
  decide

/-- The `op` of a word is the one that its number over 256 names. -/
theorem opField_eq_of_div {w : Cmd} {o : BitVec 2} (h : w.toNat / 256 = o.toNat) : opField w = o :=
  BitVec.eq_of_toNat_eq ((opField_toNat w).trans h)

/-! ## The command of each op -/

theorem decodeWord_of_op00 {w : Cmd} (h : opField w = 0b00#2) : decodeWord w = .nop (dataField w) := by
  simp [decodeWord, h]

theorem decodeWord_of_op01 {w : Cmd} (h : opField w = 0b01#2) : decodeWord w = .push (dataField w) := by
  simp [decodeWord, h]

theorem decodeWord_of_op10 {w : Cmd} (h : opField w = 0b10#2) : decodeWord w = .clear (dataField w) := by
  simp [decodeWord, h]

theorem decodeWord_of_op11 {w : Cmd} (h : opField w = 0b11#2) : decodeWord w = .reserved (dataField w) := by
  simp [decodeWord, h]

/-- A word's command has the word's two fields. -/
theorem fields_decodeWord (w : Cmd) : opOf (decodeWord w) = opField w ∧ (decodeWord w).data = dataField w := by
  obtain h | h | h | h := opBits_cases (opField w)
  · rw [decodeWord_of_op00 h, h]; exact ⟨rfl, rfl⟩
  · rw [decodeWord_of_op01 h, h]; exact ⟨rfl, rfl⟩
  · rw [decodeWord_of_op10 h, h]; exact ⟨rfl, rfl⟩
  · rw [decodeWord_of_op11 h, h]; exact ⟨rfl, rfl⟩

/-- Decoding drops no bit: the command's word is the word decoded. -/
theorem encode_decodeWord (w : Cmd) : encode (decodeWord w) = w := by
  obtain ⟨hop, hdata⟩ := fields_decodeWord w
  rw [encode, hop, hdata]
  exact append_of_fields w

/-! ## The rows of the table -/

/-- A command's word lies in the row of its mnemonic (R45). -/
theorem exists_row_of_encode (i : Instr) :
    ∃ r, r ∈ opcodeTable ∧ r.mnemonic = mnemonicOf i ∧ r.holds (encode i) = true := by
  cases i with
  | nop data => exact (Laws.OpcodeRow.nop data).1
  | push b => exact (Laws.OpcodeRow.push b).1
  | clear data => exact (Laws.OpcodeRow.clear data).1
  | reserved data => exact (Laws.OpcodeRow.reserved data).1

/-- All rows have one mask, and no two have one match: so the rows do not overlap (R45). -/
theorem OpcodeRow.eq_of_holds {r r' : OpcodeRow} {w : Cmd} (hr : r ∈ opcodeTable) (hr' : r' ∈ opcodeTable)
    (h : r.holds w = true) (h' : r'.holds w = true) : r' = r := by
  have hmask : ∀ q ∈ opcodeTable, q.mask = 0x300 := by decide
  have hmatch : ∀ q ∈ opcodeTable, ∀ q' ∈ opcodeTable, q'.matchBits = q.matchBits → q' = q := by decide
  rw [OpcodeRow.holds, beq_iff_eq, hmask _ hr] at h
  rw [OpcodeRow.holds, beq_iff_eq, hmask _ hr'] at h'
  exact hmatch r hr r' hr' (h'.symm.trans h)

/-- The word of `PUSH b` is `0x100 | b` (R45). -/
theorem encode_push (b : Byte) : encode (.push b) = 0x100 ||| b.zeroExtend 10 := BitVec.append_def 0b01#2 b

/-- Settles O2: a word's range is its `op`, the command decoded has the word as its own, which stands in its mnemonic's
row, and two rows that hold one word have the same match. -/
theorem opcodeTableDecidesEveryWord : Obligations.OpcodeTableDecidesEveryWord := by
  refine ⟨fun w => ⟨fun _ => ?nop, fun _ _ => ?push, fun _ _ => ?clear, fun _ => ?reserved⟩, by decide, fun w => ?row,
    by decide, encode_push, by decide⟩
  case nop => exact ⟨_, decodeWord_of_op00 (opField_eq_of_div (show w.toNat / 256 = 0 by omega))⟩
  case push =>
    rw [← dataField_eq_ofNat]
    exact decodeWord_of_op01 (opField_eq_of_div (show w.toNat / 256 = 1 by omega))
  case clear => exact ⟨_, decodeWord_of_op10 (opField_eq_of_div (show w.toNat / 256 = 2 by omega))⟩
  case reserved => exact ⟨_, decodeWord_of_op11 (opField_eq_of_div (show w.toNat / 256 = 3 by omega))⟩
  case row =>
    obtain ⟨r, hr, hname, hw⟩ := exists_row_of_encode (decodeWord w)
    rw [encode_decodeWord] at hw
    exact ⟨r, hr, hw, hname.symm, fun r' hr' hw' => OpcodeRow.eq_of_holds hr hr' hw hw'⟩

namespace Machine

/-! ## The data field -/

/-- The data field of NOP, CLEAR and the reserved op has no effect (R44, R47). -/
theorem exec_decodeWord_congr {w w' : Cmd} (s : State) (hop : opField w = opField w') (hpush : opField w ≠ 0b01#2) :
    exec (decodeWord w) s = exec (decodeWord w') s := by
  obtain h | h | h | h := opBits_cases (opField w)
  · rw [decodeWord_of_op00 h, decodeWord_of_op00 (hop ▸ h)]; rfl
  · exact absurd h hpush
  · rw [decodeWord_of_op10 h, decodeWord_of_op10 (hop ▸ h)]; rfl
  · rw [decodeWord_of_op11 h, decodeWord_of_op11 (hop ▸ h)]; rfl

/-- Settles O4: PUSH appends the data field, which is the low byte of the word. -/
theorem dataFieldIsThePushByteOnly : Obligations.DataFieldIsThePushByteOnly := by
  refine ⟨fun w s hop => ?push, fun w w' s => exec_decodeWord_congr s, ⟨rfl, rfl⟩⟩
  case push => rw [decodeWord_of_op01 hop, dataField_eq_setWidth]; rfl

end Machine

end Sys2Proof
end

section
/-! The frames that the assembler writes (R53, R54, R56). -/

namespace Sys2Proof.Machine

/-! ## The bytes of a frame -/

/-- The two bytes of a number, high byte first. -/
theorem bigEndian16_ofNat (k : Nat) :
    bigEndian16 (BitVec.ofNat 16 k) = [BitVec.ofNat 8 (k / 256), BitVec.ofNat 8 k] := by
  have hhigh : (BitVec.ofNat 16 k).extractLsb' 8 8 = BitVec.ofNat 8 (k / 256) := by
    apply BitVec.eq_of_toNat_eq
    simp [Nat.shiftRight_eq_div_pow]
    omega
  have hlow : (BitVec.ofNat 16 k).extractLsb' 0 8 = BitVec.ofNat 8 k := by
    apply BitVec.eq_of_toNat_eq
    simp
  rw [bigEndian16, hhigh, hlow]

theorem frameWith_length {p : List Byte} (hp : p.length = 11) (k : Crc) : (frameWith p k).length = 16 := by
  simp [frameWith, Config.marker, bigEndian16, hp]

theorem startsWithMarker_frameWith (p : List Byte) (k : Crc) : startsWithMarker (frameWith p k) = true :=
  (startsWithMarker_iff _).mpr ⟨p ++ bigEndian16 k, List.append_assoc ..⟩

/-- A frame holds its payload (R63). -/
theorem payloadOf_frameWith {p : List Byte} (hp : p.length = 11) (k : Crc) : payloadOf (frameWith p k) = p := by
  simp [payloadOf, slice, frameWith, Config.marker, ← hp]

/-- The checksum of a frame covers its marker and its payload (R61). -/
theorem crcCalc_frameWith {p : List Byte} (hp : p.length = 11) (k : Crc) :
    crcCalc (frameWith p k) = checksum (Config.marker ++ p) := by
  have hcover : Config.crcCover - 0 = (Config.marker ++ p).length := by simp [Config.marker, hp]
  rw [crcCalc, slice, List.drop_zero, frameWith, hcover, List.take_left]

/-- The checksum received in a frame is the one it was written with (R31, R61). -/
theorem crcRx_frameWith {p : List Byte} (hp : p.length = 11) (k : Crc) : crcRx (frameWith p k) = k := by
  have hhigh : (frameWith p k)[14]? = some (k.extractLsb' 8 8) := by
    simp [frameWith, Config.marker, bigEndian16, hp]
  have hlow : (frameWith p k)[15]? = some (k.extractLsb' 0 8) := by
    simp [frameWith, Config.marker, bigEndian16, hp]
  rw [crcRx, byteAt_of_getElem? hhigh, byteAt_of_getElem? hlow, zext16_shiftLeft_or_zext16]
  exact append_of_extractLsb' (n := 8) (m := 8) k

/-- The frame with the checksum of its own bytes is well-formed (R53, R60). -/
theorem wellFormedFrame_frameOf {p : List Byte} (hp : p.length = 11) : wellFormedFrame (frameOf p) = true := by
  simp [wellFormedFrame, frameOf, frameWith_length hp, startsWithMarker_frameWith, crcRx_frameWith hp,
    crcCalc_frameWith hp]

/-! ## The lines -/

/-- A line that passes every check stands for its words. -/
theorem assemble_of_error_none {a : Asm} (h : a.error = none) : assemble a = .ok (expand a) := by
  rw [assemble, h]

theorem frame_error_none {p : List Imm} (hp : p.length = 11) (hwf : ∀ b, b ∈ p → b.wf = true) :
    (Asm.frame p).error = none := by
  simp [Asm.error, hp, List.all_eq_true.mpr hwf]

theorem framex_error_none {p : List Imm} {k : Nat} (hp : p.length = 11) (hwf : ∀ b, b ∈ p → b.wf = true)
    (hk : k < 65536) : (Asm.framex p k).error = none := by
  simp [Asm.error, hp, List.all_eq_true.mpr hwf, hk]

/-- Settles O48: the lines pass their checks, and the frame's checksum bytes are read back as the checksum of the bytes
before them. -/
theorem framePseudoInstructions : Obligations.FramePseudoInstructions := by
  intro p hp hwf bs hbs
  have hlen : bs.length = 11 := by rw [hbs, List.length_map, hp]
  refine ⟨fun k hk => ?frame, fun k hk => ?framex, wellFormedFrame_frameOf hlen, payloadOf_frameWith hlen _, ?words⟩
  case frame =>
    subst hbs hk
    exact assemble_of_error_none (frame_error_none hp hwf)
  case framex =>
    subst hbs
    rw [assemble_of_error_none (framex_error_none hp hwf hk), ← bigEndian16_ofNat]
    rfl
  case words => rw [pushWords, List.length_map, frameOf, frameWith_length hlen]

end Sys2Proof.Machine
end

section
/-! The laws of the checksum (R59), and what validate-and-decode answers on any candidate and on those the block forms
(R60, R62, R65). -/

namespace Sys2Proof.Machine

/-! ## The checksum -/

/-- The checksum of a sequence starts the fold over what follows it (R59). -/
theorem checksum_append (a b : List Byte) : checksum (a ++ b) = b.foldl crcStep (checksum a) := List.foldl_append

theorem zipWith_xor_zeros (a : List Byte) :
    List.zipWith (fun p q => p ^^^ q) a (List.replicate a.length 0) = a := by
  induction a with
  | nil => rfl
  | cons x xs ih => simpa [List.replicate_succ] using ih

/-- The checksum is affine, not linear: XOR of two sequences cancels the initial register, and the checksum of as many
zeros brings it back (R59). -/
theorem checksum_zipWith_xor {x e : List Byte} (h : x.length = e.length) :
    checksum (List.zipWith (fun p q => p ^^^ q) x e) =
      checksum x ^^^ checksum e ^^^ checksum (List.replicate x.length 0) := by
  have hlen : (List.zipWith (fun p q => p ^^^ q) x e).length = x.length := by simp [h]
  have hinit : Config.crcInit ^^^ Config.crcInit ^^^ Config.crcInit = Config.crcInit := by
    rw [BitVec.xor_self, BitVec.zero_xor]
  simp only [checksum]
  rw [← foldl_crcStep_xor x e h, ← foldl_crcStep_xor _ _ (by rw [hlen, List.length_replicate]), ← hlen,
    zipWith_xor_zeros, hinit]

/-- Settles O17: the checksum is a fold, and a step of it is linear in the register and the byte together. -/
theorem checksumPrefixAndAffineLaws : Obligations.ChecksumPrefixAndAffineLaws :=
  ⟨checksum_append, fun _ _ => checksum_zipWith_xor⟩

/-! ## Validate-and-decode -/

/-- The precondition's test is that the first three bytes are `"$DC"` (R62, R72). -/
theorem startsWithMarker_iff_slice (a : List Byte) :
    startsWithMarker a = true ↔ slice a 0 3 = [0x24, 0x44, 0x43] := beq_iff_eq

theorem payloadOf_length {cand : List Byte} (hl : cand.length = 16) : (payloadOf cand).length = 11 := by
  simp [payloadOf, slice, hl]

/-- What makes 16 bytes a well-formed frame (R60). -/
theorem wellFormedFrame_iff {f : List Byte} (hl : f.length = 16) :
    wellFormedFrame f = true ↔ startsWithMarker f = true ∧ crcRx f = crcCalc f := by
  simp [wellFormedFrame, hl]

/-- Settles O19: under the precondition only the comparison of the checksums decides, and it is what well-formedness
asks besides. -/
theorem validatesExactlyWellFormedFrames : Obligations.ValidatesExactlyWellFormedFrames := by
  refine ⟨fun cand hl hslice => ?candidate, fun f hi lo hl h14 h15 => ?frame⟩
  case candidate =>
    have hm := (startsWithMarker_iff_slice cand).mpr hslice
    have hv := validateAndDecode_of_precondition hl hm
    refine ⟨fun hc => ⟨hv.trans (if_pos hc), payloadOf_length hl⟩, fun hc => hv.trans (if_neg hc), ?_⟩
    rw [wellFormedFrame_iff hl, and_iff_right hm]
    exact eq_comm
  case frame =>
    obtain ⟨hrx, -⟩ := receivedChecksumBigEndian f hi lo h14 h15
    rw [wellFormedFrame_iff hl, startsWithMarker_iff_slice, hrx]
    rfl

/-- No command raises a fault: each completes (R90). -/
theorem exec_ne_fault (i : Instr) (s : State) (r : Fault) : exec i s ≠ .fault r := by
  obtain ⟨t, ht, -⟩ := exec_frame i s
  simp [ht]

/-- Settles O20: a found marker starts its candidate, and every command completes. -/
theorem candidateMeetsPrecondition : Obligations.CandidateMeetsPrecondition := by
  refine ⟨fun acc h hf hl => ?candidate, fun cand => ?violated, fun i s => exec_ne_fault i s _⟩
  case candidate =>
    exact ⟨candidateAt_length hl, (startsWithMarker_iff_slice _).mp (candidateAt_startsWithMarker hf)⟩
  case violated => rw [validateAndDecode_violated_iff, startsWithMarker_iff_slice]

end Sys2Proof.Machine
end

section
/-! What the search finds (R71), why two markers do not overlap (R72), and the four ways a pass goes on (R70, R73, R74,
R76 to R79). -/

namespace Sys2Proof.Machine

/-! ## The search -/

/-- The match is equality of the marker's three bytes, read by their positions (R72). -/
theorem startsWithMarker_drop_iff (B : List Byte) (i : Nat) :
    startsWithMarker (B.drop i) = true ↔ B[i]? = some 0x24 ∧ B[i + 1]? = some 0x44 ∧ B[i + 2]? = some 0x43 := by
  have hfront : ∀ a : List Byte, startsWithMarker a = true ↔
      a[0]? = some 0x24 ∧ a[1]? = some 0x44 ∧ a[2]? = some 0x43 := by
    intro a
    match a with
    | [] => simp [startsWithMarker, Config.marker]
    | [_] => simp [startsWithMarker, Config.marker]
    | [_, _] => simp [startsWithMarker, Config.marker]
    | _ :: _ :: _ :: _ => simp [startsWithMarker, Config.marker]
  simpa only [List.getElem?_drop, Nat.add_zero] using hfront (B.drop i)

/-- Settles O23: a found offset is one where the match holds and below which it does not. -/
theorem searchFindsTheFirstMarker : Obligations.SearchFindsTheFirstMarker := by
  refine fun acc => ⟨fun h => ⟨fun hf => ?found, fun ⟨⟨_, hm⟩, hno⟩ => ?least⟩, ?none⟩
  case found =>
    obtain ⟨hm, hno⟩ := findMarker_eq_some_iff.mp hf
    refine ⟨⟨findMarker_add_three_le hf, (startsWithMarker_drop_iff acc h).mp hm⟩, fun i hi => ?_⟩
    rw [← startsWithMarker_drop_iff, hno i hi]
    exact Bool.false_ne_true
  case least =>
    refine findMarker_eq_some_iff.mpr ⟨(startsWithMarker_drop_iff acc h).mpr hm, fun i hi => ?_⟩
    rw [← Bool.not_eq_true, startsWithMarker_drop_iff]
    exact hno i hi
  case none => simp only [findMarker_eq_none_iff, ← Bool.not_eq_true, startsWithMarker_drop_iff]

/-- The marker's three bytes differ, so it does not start again inside itself (R72). -/
theorem marker_add_three_le {B : List Byte} {i j : Nat} (hi : startsWithMarker (B.drop i) = true)
    (hj : startsWithMarker (B.drop j) = true) (hij : i < j) : i + 3 ≤ j := by
  obtain ⟨-, hi1, hi2⟩ := (startsWithMarker_drop_iff B i).mp hi
  obtain ⟨hj0, -, -⟩ := (startsWithMarker_drop_iff B j).mp hj
  have hne1 : j ≠ i + 1 := by
    rintro rfl
    simp [hi1] at hj0
  have hne2 : j ≠ i + 2 := by
    rintro rfl
    simp [hi2] at hj0
  omega

/-- The marker stands where a search from a position finds it, at or behind that position (R82). -/
theorem findMarkerFrom_spec {p h : Nat} {B : List Byte} (hf : findMarkerFrom p B = some h) :
    p ≤ h ∧ startsWithMarker (B.drop h) = true := by
  rw [findMarkerFrom_eq, Option.map_eq_some_iff] at hf
  obtain ⟨k, hk, rfl⟩ := hf
  have hm := (findMarker_eq_some_iff.mp hk).1
  rw [List.drop_drop, Nat.add_comm] at hm
  exact ⟨Nat.le_add_left .., hm⟩

/-- Settles O24: two matches differ by at least the marker's length, and what a search finds is a match. -/
theorem markersNeverOverlap : Obligations.MarkersNeverOverlap := by
  refine ⟨startsWithMarker_drop_iff, fun _ _ _ => marker_add_three_le, fun B i h hi hf => ?_⟩
  obtain ⟨hlt, hm⟩ := findMarkerFrom_spec hf
  exact marker_add_three_le hi hm hlt

/-! ## The pass -/

/-- Settles O25: the length gate comes first. -/
theorem lengthGateStopsThePass : Obligations.LengthGateStopsThePass := fun _ => pass_short

/-- Settles O27: a pass that finds a marker too near the end stops there. -/
theorem waitRemovesNothing : Obligations.WaitRemovesNothing := fun _ _ => pass_wait

/-- A trim keeps from a `'$'` that no other follows (R73). -/
theorem trimmed_of_last_dollar {a : List Byte} {q : Nat} (hq : a[q]? = some Config.dollar)
    (hlast : ∀ i, q < i → a[i]? ≠ some Config.dollar) : trimmed a = a.drop q := by
  have hno : Config.dollar ∉ a.drop (q + 1) := by
    intro hmem
    obtain ⟨i, hi⟩ := List.mem_iff_getElem?.mp hmem
    rw [List.getElem?_drop] at hi
    exact hlast _ (by omega) hi
  rw [trimmed, lastDollar_eq_some_iff.mpr ⟨hq, hno⟩]

/-- A trim keeps nothing where there is no `'$'` (R73). -/
theorem trimmed_of_no_dollar {a : List Byte} (hno : Config.dollar ∉ a) : trimmed a = [] := by
  rw [trimmed, lastDollar_eq_none_iff.mpr hno]

/-- Settles O26: the pass without a marker is a trim, and the trim goes by the last `'$'`. -/
theorem trimKeepsFromTheLastDollar : Obligations.TrimKeepsFromTheLastDollar := by
  intro s hl hf
  rw [pass_trim hl hf, accTrim_eq]
  refine ⟨fun q hq hlast => ?last, fun hno => ?none⟩
  case last =>
    rw [trimmed_of_last_dollar hq hlast]
    rfl
  case none =>
    rw [trimmed_of_no_dollar fun hmem => (List.mem_iff_getElem?.mp hmem).elim hno]
    rfl

/-- The event raised is the one of the verdict: a sample (R76). -/
theorem raisedAt_of_ok {acc p : List Byte} {h : Nat} (s : State) (hf : findMarker acc = some h)
    (hl : 16 ≤ acc.length - h) (hv : validateAndDecode (candidateAt acc h) = .ok p) :
    raisedAt acc h s = raiseSample (pack p) s := by
  rw [validateAndDecode_candidateAt hf hl] at hv
  split at hv <;> cases hv
  case isTrue.refl hc => rw [raisedAt, if_pos hc]

/-- The event raised is the one of the verdict: a mismatch (R77). -/
theorem raisedAt_of_mismatch {acc : List Byte} {h : Nat} (s : State) (hf : findMarker acc = some h)
    (hl : 16 ≤ acc.length - h) (hv : validateAndDecode (candidateAt acc h) = .checksumMismatch) :
    raisedAt acc h s = raiseMismatch s := by
  rw [validateAndDecode_candidateAt hf hl] at hv
  split at hv <;> cases hv
  case isFalse.refl hc => rw [raisedAt, if_neg hc]

/-- Settles O28: a complete candidate raises the event of its verdict, and the pass goes on behind it. -/
theorem candidateConsumedEitherWay : Obligations.CandidateConsumedEitherWay := by
  intro s h hf hl
  rw [pass_candidate hf hl]
  refine ⟨fun p hv => ?sample, fun hv => ?mismatch⟩
  case sample => rw [raisedAt_of_ok s hf hl hv]; rfl
  case mismatch => rw [raisedAt_of_mismatch s hf hl hv]; rfl

end Sys2Proof.Machine
end

section
/-! The five outcomes of a PUSH from a reachable state, each with its next state (R81), and the source's signals that
name them (R83). -/

namespace Sys2Proof.Machine

/-! ## The next state of each outcome -/

/-- A complete candidate gets one of two verdicts (R62, R65). -/
theorem verdict_cases {acc : List Byte} {h : Nat} (hf : findMarker acc = some h) (hl : 16 ≤ acc.length - h) :
    (∃ p, validateAndDecode (candidateAt acc h) = .ok p) ∨
      validateAndDecode (candidateAt acc h) = .checksumMismatch := by
  rw [validateAndDecode_candidateAt hf hl]
  split
  · exact .inl ⟨_, rfl⟩
  · exact .inr rfl

theorem execPush_of_short {b : Byte} {s : State} (hl : (pushedAcc b s).length < 16) :
    execPush b s = .next ((s.withPulses false false).withAcc (pushedAcc b s)) := by
  rw [execPush_eq, pass_short hl]

theorem execPush_of_no_marker {b : Byte} {s : State} (hl : 16 ≤ (pushedAcc b s).length)
    (hf : findMarker (pushedAcc b s) = none) :
    execPush b s = .next ((s.withPulses false false).withAcc (trimmed (pushedAcc b s))) := by
  rw [execPush_eq, pass_trim hl hf]
  rfl

theorem execPush_of_wait {b : Byte} {s : State} {h : Nat} (hf : findMarker (pushedAcc b s) = some h)
    (hl : (pushedAcc b s).length - h < 16) :
    execPush b s = .next ((s.withPulses false false).withAcc (pushedAcc b s)) := by
  rw [execPush_eq, pass_wait hf hl]

/-- From a reachable state the PUSH that completes a candidate raises its event and leaves nothing (R81). -/
theorem execPush_of_candidate {b : Byte} {s : State} (hi : StateInv s) {h : Nat}
    (hf : findMarker (pushedAcc b s) = some h) (hl : 16 ≤ (pushedAcc b s).length - h) :
    execPush b s = .next ((raisedAt (pushedAcc b s) h (s.withPulses false false)).withAcc []) := by
  obtain ⟨t, ht, -⟩ := execPush_inv (b := b) hi
  obtain ⟨-, -, hno⟩ | ⟨k, hk, -, rfl⟩ := execPush_quiet_or_raised hi ht
  · exact absurd (hno h hf) (Nat.not_lt.mpr hl)
  · cases hf.symm.trans hk
    exact ht

/-- From a reachable state a PUSH leaves at most one pulse at 1: it meets at most one complete candidate (R81). -/
theorem execPush_pulsesExclusive {b : Byte} {s t : State} (hi : StateInv s) (ht : execPush b s = .next t) :
    PulsesExclusive t := by
  rintro ⟨hv, he⟩
  obtain ⟨h, p, hf, -, hok⟩ := (execPush_sampleValid_iff hi ht).mp hv
  obtain ⟨k, hk, -, hmis⟩ := (execPush_frameErr_iff hi ht).mp he
  cases hf.symm.trans hk
  simp [hok] at hmis

/-- Settles O32: the accumulator the pass meets decides the outcome, and the PUSH answers that outcome's next state. -/
theorem pushHasOneOfFiveOutcomes : Obligations.PushHasOneOfFiveOutcomes := by
  intro b s hi acc hacc
  obtain rfl : acc = pushedAcc b s := hacc
  obtain ⟨t, ht, hinv⟩ := execPush_inv (b := b) hi
  have hnext : ∀ {u}, execPush b s = .next u → t = u := fun hu => Host.Outcome.next.inj (ht.symm.trans hu)
  refine ⟨t, ht, hinv, execPush_pulsesExclusive hi ht, fun hl => ?insufficient, fun hl hf => ?trimmed,
    fun _ h hf hl => ?waiting, fun _ h hf hl => ⟨?exact, fun p hv => ?validated, fun hv => ?rejected, ?verdict⟩⟩
  case insufficient => exact hnext (execPush_of_short hl)
  case trimmed => exact hnext (execPush_of_no_marker hl hf)
  case waiting => exact hnext (execPush_of_wait hf (by omega))
  case exact =>
    have := pushedAcc_marker hi hf
    omega
  case validated =>
    rw [hnext (execPush_of_candidate hi hf hl), raisedAt_of_ok _ hf hl hv]
    rfl
  case rejected =>
    rw [hnext (execPush_of_candidate hi hf hl), raisedAt_of_mismatch _ hf hl hv]
    rfl
  case verdict =>
    obtain ⟨p, hv⟩ | hv := verdict_cases hf hl <;> simp [hv]

/-! ## The signals -/

theorem pushOutcome_eq (b : Byte) (s : State) : pushOutcome b s = outcomeOf (pushedAcc b s) := by
  rw [pushOutcome, makeRoom_eq]
  rfl

theorem outcomeOf_of_short {acc : List Byte} (hl : acc.length < 16) : outcomeOf acc = .insufficient := if_pos hl

theorem outcomeOf_of_no_marker {acc : List Byte} (hl : 16 ≤ acc.length) (hf : findMarker acc = none) :
    outcomeOf acc = .trimmed := by
  simp [outcomeOf, Nat.not_lt.mpr hl, hf]

theorem outcomeOf_of_wait {acc : List Byte} {h : Nat} (hl : 16 ≤ acc.length) (hf : findMarker acc = some h)
    (hw : acc.length - h < 16) : outcomeOf acc = .waiting := by
  simp [outcomeOf, Nat.not_lt.mpr hl, hf, hw]

theorem outcomeOf_of_ok {acc p : List Byte} {h : Nat} (hf : findMarker acc = some h) (hl : 16 ≤ acc.length - h)
    (hv : validateAndDecode (candidateAt acc h) = .ok p) : outcomeOf acc = .validated := by
  have hlen : 16 ≤ acc.length := by omega
  simp [outcomeOf, Nat.not_lt.mpr hlen, hf, Nat.not_lt.mpr hl, hv]

theorem outcomeOf_of_mismatch {acc : List Byte} {h : Nat} (hf : findMarker acc = some h) (hl : 16 ≤ acc.length - h)
    (hv : validateAndDecode (candidateAt acc h) = .checksumMismatch) : outcomeOf acc = .rejected := by
  have hlen : 16 ≤ acc.length := by omega
  simp [outcomeOf, Nat.not_lt.mpr hlen, hf, Nat.not_lt.mpr hl, hv]

/-- What each outcome says of the accumulator (R81). -/
def OutcomeMeaning (acc : List Byte) : PushOutcome → Prop
  | .insufficient => acc.length < 16
  | .trimmed => 16 ≤ acc.length ∧ findMarker acc = none
  | .waiting => 16 ≤ acc.length ∧ ∃ h, findMarker acc = some h ∧ acc.length - h ≤ 15
  | .validated => ∃ h p, findMarker acc = some h ∧ 16 ≤ acc.length - h ∧
      validateAndDecode (candidateAt acc h) = .ok p
  | .rejected => ∃ h, findMarker acc = some h ∧ 16 ≤ acc.length - h ∧
      validateAndDecode (candidateAt acc h) = .checksumMismatch

/-- Every accumulator meets what its outcome says (R81). -/
theorem outcomeMeaning_outcomeOf (acc : List Byte) : OutcomeMeaning acc (outcomeOf acc) := by
  by_cases hl : acc.length < 16
  · rw [outcomeOf_of_short hl]
    exact hl
  · rw [Nat.not_lt] at hl
    cases hf : findMarker acc with
    | none =>
      rw [outcomeOf_of_no_marker hl hf]
      exact ⟨hl, hf⟩
    | some h =>
      by_cases hw : acc.length - h < 16
      · rw [outcomeOf_of_wait hl hf hw]
        exact ⟨hl, h, hf, by omega⟩
      · rw [Nat.not_lt] at hw
        obtain ⟨p, hv⟩ | hv := verdict_cases hf hw
        · rw [outcomeOf_of_ok hf hw hv]
          exact ⟨h, p, hf, hw, hv⟩
        · rw [outcomeOf_of_mismatch hf hw hv]
          exact ⟨h, hf, hw, hv⟩

/-- The outcome is the one whose condition the accumulator meets, so the five conditions exclude each other (R81). -/
theorem outcomeOf_eq_iff (acc : List Byte) (o : PushOutcome) : outcomeOf acc = o ↔ OutcomeMeaning acc o := by
  refine ⟨fun h => h ▸ outcomeMeaning_outcomeOf acc, fun h => ?_⟩
  cases o with
  | insufficient => exact outcomeOf_of_short h
  | trimmed => exact outcomeOf_of_no_marker h.1 h.2
  | waiting =>
    obtain ⟨hl, k, hf, hw⟩ := h
    exact outcomeOf_of_wait hl hf (by omega)
  | validated =>
    obtain ⟨k, p, hf, hl, hv⟩ := h
    exact outcomeOf_of_ok hf hl hv
  | rejected =>
    obtain ⟨k, hf, hl, hv⟩ := h
    exact outcomeOf_of_mismatch hf hl hv

/-- From a reachable state a PUSH that leaves `sample_valid = 0` leaves `sample_data` as it was (R89). -/
theorem execPush_sampleData_of_not_valid {b : Byte} {s t : State} (hi : StateInv s) (ht : execPush b s = .next t)
    (hv : t.sampleValid = false) : t.sampleData = s.sampleData := by
  obtain ⟨-, h⟩ | ⟨-, -, h⟩ | ⟨-, -, h⟩ | ⟨k, hf, hk, h⟩ := execPush_cases (b := b) hi <;> cases h.symm.trans ht
  · rfl
  · rfl
  · rfl
  · obtain ⟨p, hok⟩ | hmis := verdict_cases hf hk.ge
    · simp [raisedAt_of_ok _ hf hk.ge hok, raiseSample_eq] at hv
    · simp [raisedAt_of_mismatch _ hf hk.ge hmis, raiseMismatch_eq]

/-- Settles O33: the accumulator decides the outcome, and the pulses of a reachable PUSH go by the same conditions. -/
theorem sourceSignalsNameTheOutcomes : Obligations.SourceSignalsNameTheOutcomes := by
  refine ⟨fun o => ?table, fun b s hi acc hacc => ?push⟩
  case table => cases o <;> rfl
  case push =>
    obtain rfl : acc = pushedAcc b s := hacc
    obtain ⟨t, ht, -⟩ := execPush_inv (b := b) hi
    have hvalid : pushOutcome b s = .validated ↔ t.sampleValid = true := by
      rw [pushOutcome_eq, execPush_sampleValid_iff hi ht]
      exact outcomeOf_eq_iff ..
    have hrejected : pushOutcome b s = .rejected ↔ t.frameErr = true := by
      rw [pushOutcome_eq, execPush_frameErr_iff hi ht]
      exact outcomeOf_eq_iff ..
    refine ⟨t, ht, ?_, ?_, ?_, hrejected, hvalid, fun hsig => ?data⟩
    case data =>
      have hne : pushOutcome b s ≠ .validated := fun ho => hsig (by rw [ho]; rfl)
      exact execPush_sampleData_of_not_valid hi ht (by simpa using mt hvalid.mpr hne)
    all_goals
      rw [pushOutcome_eq]
      exact outcomeOf_eq_iff ..

end Sys2Proof.Machine
end

section
/-! What a front of a byte stream leaves to `Extract` once its events are taken (R82), and that a PUSH takes exactly the
events that its byte completes. -/

namespace Sys2Proof.Machine

/-! ## Accumulators that have been through a pass -/

/-- No complete candidate starts at the first marker: what a pass leaves (R70 to R79). -/
def NoFullFrame (a : List Byte) : Prop := ∀ k, findMarker a = some k → a.length - k < 16

/-- The reachable form holds no complete candidate (R28). -/
theorem AccInv.noFullFrame {c : Nat} {a : List Byte} (ha : AccInv c a) : NoFullFrame a := by
  obtain ⟨-, hsome, -⟩ := ha
  intro k hk
  by_cases hl : 16 ≤ a.length
  · exact Nat.lt_succ_of_le (hsome hl k hk)
  · omega

/-- No marker starts a full accumulator that has been through a pass, whatever bytes come later (R68, R82). -/
theorem NoFullFrame.not_startsWithMarker {a : List Byte} (hp : NoFullFrame a) (hl : 16 ≤ a.length) (B : List Byte) :
    startsWithMarker (a ++ B) = false := by
  rw [startsWithMarker_append_of_length (by omega)]
  cases hf : findMarker a with
  | none => simpa using findMarker_eq_none_iff.mp hf 0
  | some k =>
    have := hp k hf
    simpa using (findMarker_eq_some_iff.mp hf).2 0 (by omega)

/-- The first candidate behind such an accumulator is not complete before a later byte (R82). -/
theorem NoFullFrame.length_lt {a B : List Byte} (hp : NoFullFrame a) {h : Nat} (hf : findMarker (a ++ B) = some h) :
    a.length < h + 16 := by
  cases ha : findMarker a with
  | some k =>
    rw [findMarker_append_of_some ha] at hf
    cases hf
    have := hp h ha
    omega
  | none =>
    by_contra hge
    have hm := (findMarker_eq_some_iff.mp hf).1
    rw [List.drop_append_of_le_length (by omega),
      startsWithMarker_append_of_length (by rw [List.length_drop]; omega), findMarker_eq_none_iff.mp ha h] at hm
    exact Bool.false_ne_true hm

/-- Every event of `Extract` lies at the first marker or behind it. -/
theorem le_of_mem_extractAt {B : List Byte} {h : Nat} (hf : findMarker B = some h) {e : Nat × Event}
    (he : e ∈ extractAt B) : h ≤ e.1 := by
  by_cases hl : h + 16 ≤ B.length
  · rw [extractAt_of_candidate hf hl, List.mem_cons, shifted, List.mem_map] at he
    obtain rfl | ⟨x, -, rfl⟩ := he
    · exact le_refl h
    · simp only
      omega
  · rw [extractAt_of_short hf (by omega)] at he
    exact absurd he List.not_mem_nil

/-- Every event behind such an accumulator is completed by a later byte (R82). -/
theorem NoFullFrame.lt_of_mem_extractAt {a B : List Byte} (hp : NoFullFrame a) {e : Nat × Event}
    (he : e ∈ extractAt (a ++ B)) : a.length < e.1 + 16 := by
  cases hf : findMarker (a ++ B) with
  | none => simp [extractAt_of_none hf] at he
  | some h =>
    have hlt := hp.length_lt hf
    have hle := le_of_mem_extractAt hf he
    omega

/-! ## Fronts -/

/-- `Extract` on a stream that begins with `a` gives the events `l`, and goes on as on the stream that begins with `a'`
instead, which is `n` bytes shorter. -/
def Reduces (a : List Byte) (n : Nat) (l : List (Nat × Event)) (a' : List Byte) : Prop :=
  n + a'.length = a.length ∧ ∀ B, extractAt (a ++ B) = l ++ shifted n (extractAt (a' ++ B))

theorem Reduces.refl (a : List Byte) : Reduces a 0 [] a :=
  ⟨Nat.zero_add _, fun _ => (shifted_zero _).symm⟩

/-- Bytes at which no marker starts can go (R82). -/
theorem reduces_drop {a : List Byte} {n : Nat} (hn : n ≤ a.length)
    (hno : ∀ B i, i < n → startsWithMarker ((a ++ B).drop i) = false) : Reduces a n [] (a.drop n) := by
  refine ⟨by rw [List.length_drop]; omega, fun B => ?_⟩
  rw [extractAt_drop (by rw [List.length_append]; omega) (hno B), List.drop_append_of_le_length hn, List.nil_append]

/-- A complete candidate goes with its event (R78, R82). -/
theorem reduces_candidate {a : List Byte} {h : Nat} (hf : findMarker a = some h) (hl : h + 16 ≤ a.length) :
    Reduces a (h + 16) [(h, candidateEvent (candidateAt a h))] (a.drop (h + 16)) := by
  refine ⟨by rw [List.length_drop]; omega, fun B => ?_⟩
  rw [extractAt_of_candidate (findMarker_append_of_some hf B) (by rw [List.length_append]; omega),
    candidateAt_append hl, List.drop_append_of_le_length hl]
  rfl

/-- A reduction goes on where bytes have gone. -/
theorem Reduces.trans {a a' a'' : List Byte} {n m : Nat} {l : List (Nat × Event)} (h₁ : Reduces a n [] a')
    (h₂ : Reduces a' m l a'') : Reduces a (m + n) (shifted n l) a'' := by
  obtain ⟨hlen₁, hext₁⟩ := h₁
  obtain ⟨hlen₂, hext₂⟩ := h₂
  refine ⟨by omega, fun B => ?_⟩
  rw [hext₁, hext₂, List.nil_append, ← shifted_shifted]
  exact List.map_append

/-- The events of a reduction, without their offsets. -/
theorem Reduces.extract {a a' : List Byte} {n : Nat} {l : List (Nat × Event)} (h : Reduces a n l a') (B : List Byte) :
    extract (a ++ B) = l.map Prod.snd ++ Machine.extract (a' ++ B) := by
  obtain ⟨-, hext⟩ := h
  rw [Machine.extract, hext, List.map_append, map_snd_shifted]
  rfl

/-- The drop of the oldest byte costs no event (R68, R82). -/
theorem reduces_drop_oldest {a : List Byte} (hl : 16 ≤ a.length) (hp : NoFullFrame a) :
    Reduces a 1 [] (a.drop 1) := by
  refine reduces_drop (by omega) fun B i hi => ?_
  rw [Nat.lt_one_iff.mp hi, List.drop_zero, hp.not_startsWithMarker hl]

/-- A trim costs no event (R73, R82). -/
theorem reduces_trimmed {a : List Byte} (hf : findMarker a = none) : ∃ n, Reduces a n [] (trimmed a) := by
  cases hq : lastDollar a with
  | some q =>
    have htrim : trimmed a = a.drop q := by rw [trimmed, hq]
    rw [htrim]
    exact ⟨q, reduces_drop (lastDollar_lt hq).le fun B i => no_marker_before_last_dollar hf B hq⟩
  | none =>
    have hno := lastDollar_eq_none_iff.mp hq
    rw [trimmed_of_no_dollar hno, ← List.drop_length (l := a)]
    exact ⟨a.length, reduces_drop (le_refl _) fun B i => startsWithMarker_drop_of_no_dollar hno⟩

/-! ## A PUSH -/

/-- Making room for the byte costs no event (R68, R82). -/
theorem reduces_pushedAcc {b : Byte} {s : State} (hi : StateInv s) :
    ∃ n, Reduces (s.acc ++ [b]) n [] (pushedAcc b s) := by
  obtain ⟨hcap, hacc⟩ := hi
  unfold pushedAcc
  split
  case isTrue hfull =>
    obtain ⟨hlen, hext⟩ := reduces_drop_oldest (hfull ▸ hcap) hacc.noFullFrame
    refine ⟨1, by simp only [List.length_append]; omega, fun B => ?_⟩
    rw [List.append_assoc, List.append_assoc]
    exact hext _
  case isFalse => exact ⟨0, Reduces.refl _⟩

/-- The ports show the event that is raised on a state with both pulses 0 (R76, R77, R92). -/
theorem portEvents_raisedAt {acc a : List Byte} {h : Nat} (s : State) (hf : findMarker acc = some h)
    (hl : 16 ≤ acc.length - h) :
    portEvents (ports ((raisedAt acc h (s.withPulses false false)).withAcc a)) =
      [candidateEvent (candidateAt acc h)] := by
  obtain ⟨p, hv⟩ | hv := verdict_cases hf hl
  · rw [raisedAt_of_ok _ hf hl hv, candidateEvent, hv]
    rfl
  · rw [raisedAt_of_mismatch _ hf hl hv, candidateEvent, hv]
    rfl

/-- From a reachable state a PUSH raises exactly the events that its byte completes, and leaves an accumulator in place
of the bytes so far (R81, R82). -/
theorem execPush_reduces {b : Byte} {s t : State} (hi : StateInv s) (ht : execPush b s = .next t) :
    ∃ n l, Reduces (s.acc ++ [b]) n l t.acc ∧ (∀ e ∈ l, e.1 + 15 = s.acc.length) ∧
      l.map Prod.snd = portEvents (ports t) := by
  obtain ⟨n, hpush⟩ := reduces_pushedAcc (b := b) hi
  obtain ⟨-, h⟩ | ⟨-, hf, h⟩ | ⟨-, -, h⟩ | ⟨k, hf, hk, h⟩ := execPush_cases (b := b) hi <;> cases h.symm.trans ht
  · exact ⟨n, [], hpush, by simp, rfl⟩
  · obtain ⟨m, htrim⟩ := reduces_trimmed hf
    exact ⟨m + n, [], hpush.trans htrim, by simp, rfl⟩
  · exact ⟨n, [], hpush, by simp, rfl⟩
  · have hcand := reduces_candidate hf (by omega)
    rw [List.drop_eq_nil_of_le (by omega)] at hcand
    refine ⟨_, _, hpush.trans hcand, fun e he => ?_, (portEvents_raisedAt s hf hk.ge).symm⟩
    rw [shifted, List.map_singleton, List.mem_singleton] at he
    have hlen := hpush.1
    rw [List.length_append, List.length_singleton] at hlen
    rw [he]
    simp only
    omega

end Sys2Proof.Machine
end

section
/-! The events of a run of PUSHes and NOPs, edge by edge and chunk by chunk, against `Extract` and the source's algorithm
(R82, R84). -/

namespace Sys2Proof.Machine

/-! ## One edge of a run -/

/-- A state of the reachable form in a run that has started and is not refused (R28, R87, R107). -/
def Running (s : State) : Prop := StateInv s ∧ s.resetDone = true ∧ s.reservedSeen = false

theorem running_resetWith {c : Nat} (hc : 16 ≤ c) : Running (State.resetWith c) :=
  ⟨stateInv_of_acc_nil hc rfl, rfl, rfl⟩

theorem Running.driven {s : State} (hs : Running s) (es : List Edge) : Running (driven s es) := hs

theorem Running.noFullFrame {s : State} (hs : Running s) : NoFullFrame s.acc := by
  obtain ⟨⟨-, hacc⟩, -⟩ := hs
  exact hacc.noFullFrame

/-- An edge that performs a PUSH or a NOP performs one of the two with `rst = 0`. -/
theorem isPushOrNop_cases {e : Edge} (he : isPushOrNop e = true) :
    e.rst = false ∧ ((∃ b, decodeWord e.cmd = .push b) ∨ ∃ d, decodeWord e.cmd = .nop d) := by
  rw [isPushOrNop, Bool.and_eq_true, Bool.not_eq_true'] at he
  obtain ⟨hr, hcmd⟩ := he
  refine ⟨hr, ?_⟩
  cases hd : decodeWord e.cmd with
  | push b => exact .inl ⟨b, rfl⟩
  | nop d => exact .inr ⟨d, rfl⟩
  | clear d => simp [hd] at hcmd
  | reserved d => simp [hd] at hcmd

theorem isPushOrNop_conforming {e : Edge} (he : isPushOrNop e = true) : edgeConforming e = true := by
  obtain ⟨-, ⟨b, hd⟩ | ⟨d, hd⟩⟩ := isPushOrNop_cases he <;> simp [edgeConforming, hd, Instr.conforming]

theorem pushedBytes_cons (e : Edge) (es : List Edge) :
    pushedBytes (e :: es) = (pushedByte e).toList ++ pushedBytes es := by
  cases h : pushedByte e <;> simp [pushedBytes, h]

/-- An edge that performs a PUSH or a NOP goes on in a running state, and raises exactly the events that its byte, if it
has one, completes (R82, R85). -/
theorem runStep_reduces {s : State} {e : Edge} {rest : List Edge} (hs : Running s) (hp : s.pending = e :: rest)
    (he : isPushOrNop e = true) :
    ∃ t, runStep s = .next t ∧ t.pending = rest ∧ Running t ∧
      ∃ n l, Reduces (s.acc ++ (pushedByte e).toList) n l t.acc ∧ (∀ x ∈ l, x.1 + 15 = s.acc.length) ∧
        l.map Prod.snd = portEvents (ports t) := by
  obtain ⟨hinv, hdone, hseen⟩ := hs
  obtain ⟨t, ht, hrun, htp, -, htr, htd⟩ :=
    runStep_of_conforming hp (.inl hdone) hseen (isPushOrNop_conforming he)
  refine ⟨t, hrun, htp, ⟨step_inv hinv ht, htd, htr⟩, ?_⟩
  obtain ⟨hr, hcmd⟩ := isPushOrNop_cases he
  obtain ⟨hrst, -⟩ | ⟨-, -, hx⟩ := step_cases hp ht
  · simp [hr] at hrst
  obtain ⟨b, hd⟩ | ⟨d, hd⟩ := hcmd
  · have hbyte : pushedByte e = some b := by simp [pushedByte, hr, hd]
    rw [hd] at hx
    rw [hbyte]
    exact execPush_reduces (s := s.withPending rest) hinv hx
  · have hbyte : pushedByte e = none := by simp [pushedByte, hr, hd]
    rw [hd] at hx
    cases hx
    rw [hbyte, Option.toList_none, List.append_nil]
    exact ⟨0, [], Reduces.refl _, by simp, rfl⟩

/-! ## The events of a run, in order -/

/-- A run of PUSHes and NOPs completes, and raises the events that its bytes complete (R82). -/
theorem run_extract {s : State} (hs : Running s) (hes : ∀ e ∈ s.pending, isPushOrNop e = true) :
    ∃ t evs, afterEdges s.pending.length s = .next t ∧ runEvents s = .next evs ∧ Running t ∧
      ∀ B, extract (s.acc ++ pushedBytes s.pending ++ B) = evs ++ extract (t.acc ++ B) := by
  generalize hp : s.pending = es at hes ⊢
  induction es generalizing s with
  | nil =>
    refine ⟨s, [], rfl, ?_, hs, by simp [pushedBytes]⟩
    simp [runEvents, edgeEvents, observed, hp, observations]
  | cons e rest ih =>
    rw [List.forall_mem_cons] at hes
    obtain ⟨t, hrun, htp, htr, n, l, hred, -, hevs⟩ := runStep_reduces hs hp hes.1
    obtain ⟨u, evs, hafter, hruns, hur, hext⟩ := ih htr htp hes.2
    refine ⟨u, portEvents (ports t) ++ evs, ?_, ?_, hur, fun B => ?_⟩
    · rw [List.length_cons, afterEdges, hrun, thenNext_next, hafter]
    · rw [runEvents_cons hp hrun htp, hruns, thenNext_next]
    · calc extract (s.acc ++ pushedBytes (e :: rest) ++ B)
          = extract (s.acc ++ (pushedByte e).toList ++ (pushedBytes rest ++ B)) := by
            simp only [pushedBytes_cons, List.append_assoc]
        _ = portEvents (ports t) ++ extract (t.acc ++ pushedBytes rest ++ B) := by
            rw [hred.extract, hevs, List.append_assoc]
        _ = portEvents (ports t) ++ evs ++ extract (u.acc ++ B) := by rw [hext, List.append_assoc]

/-- The events of a run of PUSHes and NOPs are `Extract` of the bytes held and the bytes pushed (R82). -/
theorem runEvents_eq_extract {s : State} (hs : Running s) {es : List Edge}
    (hes : ∀ e ∈ es, isPushOrNop e = true) :
    runEvents (driven s es) = .next (extract (s.acc ++ pushedBytes es)) := by
  obtain ⟨t, evs, -, hruns, htr, hext⟩ := run_extract (hs.driven es) hes
  have hall := hext []
  rw [List.append_nil, List.append_nil, extract_eq_nil htr.noFullFrame, List.append_nil] at hall
  rw [hruns, ← hall]
  rfl

/-! ## Chunks -/

theorem decodeWord_encode_push (b : Byte) : decodeWord (encode (.push b)) = .push b := by
  rw [decodeWord_of_op01 (opField_encode _), dataField_encode]
  rfl

theorem chunkEdges_cons (b : Byte) (B : List Byte) :
    chunkEdges (b :: B) = commandEdge (.push b) :: chunkEdges B := rfl

theorem chunkEdges_length (B : List Byte) : (chunkEdges B).length = B.length := by
  simp [chunkEdges, wordEdges, pushWords]

theorem isPushOrNop_push (b : Byte) : isPushOrNop (commandEdge (.push b)) = true := by
  simp [isPushOrNop, commandEdge, decodeWord_encode_push]

theorem pushedByte_push (b : Byte) : pushedByte (commandEdge (.push b)) = some b := by
  simp [pushedByte, commandEdge, decodeWord_encode_push]

theorem isPushOrNop_of_mem_chunkEdges {B : List Byte} : ∀ e ∈ chunkEdges B, isPushOrNop e = true := by
  induction B with
  | nil => exact fun e he => absurd he List.not_mem_nil
  | cons b B ih =>
    rw [chunkEdges_cons, List.forall_mem_cons]
    exact ⟨isPushOrNop_push b, ih⟩

theorem pushedBytes_chunkEdges (B : List Byte) : pushedBytes (chunkEdges B) = B := by
  induction B with
  | nil => rfl
  | cons b B ih => rw [chunkEdges_cons, pushedBytes_cons, pushedByte_push, ih]; rfl

/-! ## The edge of each event -/

/-- The events whose candidate ends at byte `n` of a stream (R82). -/
def eventsEndingAt (l : List (Nat × Event)) (n : Nat) : List Event :=
  (l.filter (fun he => he.1 + 15 == n)).map Prod.snd

theorem eventsEndingAt_append (l l' : List (Nat × Event)) (n : Nat) :
    eventsEndingAt (l ++ l') n = eventsEndingAt l n ++ eventsEndingAt l' n := by
  simp [eventsEndingAt]

theorem eventsEndingAt_of_forall_eq {l : List (Nat × Event)} {n : Nat} (h : ∀ e ∈ l, e.1 + 15 = n) :
    eventsEndingAt l n = l.map Prod.snd := by
  rw [eventsEndingAt, List.filter_eq_self.mpr fun e he => beq_iff_eq.mpr (h e he)]

theorem eventsEndingAt_of_forall_ne {l : List (Nat × Event)} {n : Nat} (h : ∀ e ∈ l, e.1 + 15 ≠ n) :
    eventsEndingAt l n = [] := by
  rw [eventsEndingAt, List.filter_eq_nil_iff.mpr fun e he => by simpa using h e he, List.map_nil]

theorem eventsEndingAt_shifted (k : Nat) (l : List (Nat × Event)) (n : Nat) :
    eventsEndingAt (shifted k l) (n + k) = eventsEndingAt l n := by
  have hoff : ∀ i, (i + k + 15 == n + k) = (i + 15 == n) := by
    intro i
    rw [Bool.eq_iff_iff, beq_iff_eq, beq_iff_eq]
    omega
  simp [eventsEndingAt, shifted, List.filter_map, Function.comp_def, hoff]

/-- The byte that a reduction takes last completes its events. -/
theorem Reduces.eventsEndingAt_last {a a' : List Byte} {b : Byte} {k : Nat} {l : List (Nat × Event)}
    (h : Reduces (a ++ [b]) k l a') (hl : ∀ e ∈ l, e.1 + 15 = a.length) (hp : NoFullFrame a') (B : List Byte) :
    eventsEndingAt (extractAt (a ++ b :: B)) a.length = l.map Prod.snd := by
  obtain ⟨hlen, hext⟩ := h
  rw [List.length_append, List.length_singleton] at hlen
  rw [List.append_cons, hext, eventsEndingAt_append, eventsEndingAt_of_forall_eq hl,
    eventsEndingAt_of_forall_ne, List.append_nil]
  intro e he
  rw [shifted, List.mem_map] at he
  obtain ⟨x, hx, rfl⟩ := he
  have := hp.lt_of_mem_extractAt hx
  simp only
  omega

/-- The bytes behind a reduction complete the events that they complete behind what it left. -/
theorem Reduces.eventsEndingAt_later {a a' : List Byte} {b : Byte} {k : Nat} {l : List (Nat × Event)}
    (h : Reduces (a ++ [b]) k l a') (hl : ∀ e ∈ l, e.1 + 15 = a.length) (B : List Byte) (n : Nat) :
    eventsEndingAt (extractAt (a ++ b :: B)) (a.length + (n + 1)) =
      eventsEndingAt (extractAt (a' ++ B)) (a'.length + n) := by
  obtain ⟨hlen, hext⟩ := h
  rw [List.length_append, List.length_singleton] at hlen
  rw [List.append_cons, hext, eventsEndingAt_append, eventsEndingAt_of_forall_ne, List.nil_append,
    show a.length + (n + 1) = a'.length + n + k by omega, eventsEndingAt_shifted]
  intro e he
  have := hl e he
  omega

/-- The edge of a byte raises the events that end at it, with the bytes held counted in front (R82). -/
theorem edgeEvents_chunk {s : State} (hs : Running s) (B : List Byte) :
    edgeEvents (driven s (chunkEdges B)) =
      .next ((List.range B.length).map
        (fun n => eventsEndingAt (extractAt (s.acc ++ B)) (s.acc.length + n))) := by
  induction B generalizing s with
  | nil => rfl
  | cons b B ih =>
    have hp : (driven s (chunkEdges (b :: B))).pending = commandEdge (.push b) :: chunkEdges B := rfl
    obtain ⟨t, hrun, htp, htr, k, l, hred, hl, hevs⟩ := runStep_reduces (hs.driven _) hp (isPushOrNop_push b)
    rw [pushedByte_push] at hred
    have htail : edgeEvents t = _ := htp ▸ ih htr
    rw [edgeEvents_cons hp hrun htp, htail, thenNext_next, ← hevs, ← hred.eventsEndingAt_last hl htr.noFullFrame B,
      List.length_cons, List.range_succ_eq_map, List.map_cons, List.map_map]
    simp only [Function.comp_def, Nat.succ_eq_add_one, ← hred.eventsEndingAt_later hl B]
    rfl

/-! ## The source's algorithm -/

/-- A reading whose capacity, if it has one, is legal (R7, R82). -/
def LegalReading (r : Reading) : Prop := ∀ c, r.cap = some c → 16 ≤ c

theorem legalReading_unbounded (keep : Bool) : LegalReading ⟨none, keep⟩ := by
  intro c hc
  cases hc

theorem legalReading_capacity {c : Nat} (hc : 16 ≤ c) (keep : Bool) : LegalReading ⟨some c, keep⟩ := by
  intro c' hc'
  cases hc'
  exact hc

/-- Making room costs the source no event (R68, R82). -/
theorem extract_roomUnder {r : Reading} (hr : LegalReading r) {a : List Byte} (hp : NoFullFrame a) (B : List Byte) :
    extract (a ++ B) = extract (roomUnder r.cap a ++ B) := by
  unfold roomUnder
  split
  case isTrue hfull => exact extract_drop_oldest (hr _ hfull) hp B
  case isFalse => rfl

/-- A call of the source raises the events that its chunk completes, and leaves no complete candidate (R69, R82). -/
theorem onBytesReceived_extract {r : Reading} (hr : LegalReading r) {a : List Byte} (hp : NoFullFrame a)
    (chunk : List Byte) :
    (∀ B, extract (a ++ chunk ++ B) =
      (onBytesReceived r a chunk).2 ++ extract ((onBytesReceived r a chunk).1 ++ B)) ∧
    NoFullFrame (onBytesReceived r a chunk).1 := by
  obtain ⟨hevents, hleft⟩ := sourcePass_extract r (a := roomUnder r.cap a ++ chunk) (le_refl _)
  refine ⟨fun B => ?_, hleft⟩
  rw [List.append_assoc, extract_roomUnder hr hp, ← List.append_assoc]
  exact hevents B

/-- The events of one call: those of the bytes held and the chunk (R84). -/
theorem onBytesReceived_events {r : Reading} (hr : LegalReading r) {a : List Byte} (hp : NoFullFrame a)
    (chunk : List Byte) : (onBytesReceived r a chunk).2 = extract (a ++ chunk) := by
  obtain ⟨hevents, hleft⟩ := onBytesReceived_extract hr hp chunk
  have hall := hevents []
  rw [List.append_nil, List.append_nil, extract_eq_nil hleft, List.append_nil] at hall
  exact hall.symm

/-- The source raises the events of `Extract`, on any split into chunks (R82). -/
theorem chunkEvents_eq_extract {r : Reading} (hr : LegalReading r) {a : List Byte} (hp : NoFullFrame a)
    (chunks : List (List Byte)) : chunkEvents r a chunks = extract (a ++ chunks.flatten) := by
  induction chunks generalizing a with
  | nil => rw [List.flatten_nil, List.append_nil, extract_eq_nil hp]; rfl
  | cons c rest ih =>
    obtain ⟨hevents, hleft⟩ := onBytesReceived_extract hr hp c
    rw [chunkEvents, ih hleft, List.flatten_cons, ← List.append_assoc, hevents]

/-- The block and the source raise the same events call by call, where they hold bytes that no later byte tells apart
(R84). -/
theorem blockCallEvents_eq_callEvents {r : Reading} (hr : LegalReading r) {s : State} (hs : Running s) {a : List Byte}
    (hp : NoFullFrame a) (hsame : ∀ B, extract (s.acc ++ B) = extract (a ++ B)) (chunks : List (List Byte)) :
    blockCallEvents s chunks = .next (callEvents r a chunks) := by
  induction chunks generalizing s a with
  | nil => rfl
  | cons c rest ih =>
    obtain ⟨t, evs, hafter, hruns, htr, hblock⟩ :=
      run_extract (hs.driven (chunkEdges c)) isPushOrNop_of_mem_chunkEdges
    obtain ⟨hsource, hleft⟩ := onBytesReceived_extract hr hp c
    have hevs : evs = (onBytesReceived r a c).2 := by
      have h := runEvents_eq_extract hs (isPushOrNop_of_mem_chunkEdges (B := c))
      rw [pushedBytes_chunkEdges, hsame, ← onBytesReceived_events hr hp] at h
      exact Host.Outcome.next.inj (hruns.symm.trans h)
    have hsame' : ∀ B, extract (t.acc ++ B) = extract ((onBytesReceived r a c).1 ++ B) := by
      intro B
      refine List.append_cancel_left (as := evs) ?_
      calc evs ++ extract (t.acc ++ B)
          = extract (s.acc ++ pushedBytes (chunkEdges c) ++ B) := (hblock B).symm
        _ = extract (a ++ c ++ B) := by rw [pushedBytes_chunkEdges, List.append_assoc, hsame, List.append_assoc]
        _ = evs ++ extract ((onBytesReceived r a c).1 ++ B) := by rw [hsource, hevs]
    have hafter' : afterEdges c.length (driven s (chunkEdges c)) = .next t := chunkEdges_length c ▸ hafter
    rw [blockCallEvents, hruns, thenNext_next, hafter', thenNext_next, ih htr hleft hsame', thenNext_next, callEvents,
      hevs]

/-! ## The stream law -/

/-- Nothing held is no candidate. -/
theorem noFullFrame_nil : NoFullFrame [] := fun _ _ => by simp

/-- Settles O42: every edge, and every call of the source, takes from the stream exactly the events that its bytes
complete. -/
theorem streamEventsAreExtract : Obligations.StreamEventsAreExtract := by
  refine ⟨fun c es hc hes => ?run, fun c B hc => ?edges, fun keep chunks => ?source, fun c keep B hc => ?serial⟩
  case run => exact runEvents_eq_extract (running_resetWith hc) hes
  case edges =>
    rw [edgeEvents_chunk (running_resetWith hc)]
    simp only [State.resetWith_acc, List.nil_append, List.length_nil, Nat.zero_add, eventsEndingAt]
  case source => exact chunkEvents_eq_extract (legalReading_unbounded keep) noFullFrame_nil chunks
  case serial =>
    rw [chunkEvents_eq_extract (legalReading_capacity hc keep) noFullFrame_nil, List.nil_append,
      ← List.flatMap_def, List.flatMap_singleton']

/-- Settles O43: at reset the block and the source both hold nothing. -/
theorem chunkCallsRaiseTheSourcesEvents : Obligations.ChunkCallsRaiseTheSourcesEvents :=
  fun _ keep chunks hc =>
    blockCallEvents_eq_callEvents (legalReading_unbounded keep) (running_resetWith hc) noFullFrame_nil
      (fun _ => rfl) chunks

end Sys2Proof.Machine
end

section
/-! NOP, CLEAR and `rst` (R85, R86, R88), and the sample register over a run (R89). -/

namespace Sys2Proof.Machine

/-! ## NOP, CLEAR and `rst` -/

/-- Settles O11: the next state that R85's pseudocode writes is the one stated, by definition. -/
theorem nopEndsPulsesOnly : Obligations.NopEndsPulsesOnly := fun _ _ => rfl

/-- Settles O12: the next state that R86's pseudocode writes is the one stated, by definition. -/
theorem clearEmptiesAccumulator : Obligations.ClearEmptiesAccumulator := fun _ _ => rfl

/-- An edge with `rst = 1` resets the block, whatever its word (R104, R105). -/
theorem step_of_rst {s : State} {e : Edge} {rest : List Edge} (hp : s.pending = e :: rest) (hr : e.rst = true) :
    step s = .next (resetEdge (s.withPending rest)) := by
  simp [step, hp, hr]

/-- Once there has been an `rst`, an edge with `rst = 0` performs its word (R36, R107). -/
theorem step_of_command {s : State} {e : Edge} {rest : List Edge} (hp : s.pending = e :: rest)
    (hd : s.resetDone = true) (hr : e.rst = false) : step s = exec (decodeWord e.cmd) (s.withPending rest) := by
  simp [step, hp, hd, hr]

/-- Settles O14: the one edge resets the block and the other performs CLEAR, and each has its whole next state. -/
theorem clearAndResetDiffer : Obligations.ClearAndResetDiffer := by
  refine fun s e rest hp => ⟨fun hr => ?rst, fun hdone hr => ?clear⟩
  case rst => exact ⟨_, step_of_rst hp hr, rfl, rfl, rfl, rfl⟩
  case clear =>
    rintro ⟨d, hd⟩
    rw [step_of_command hp hdone hr, hd, clearEmptiesAccumulator]
    exact ⟨_, rfl, rfl, rfl, rfl, rfl⟩

/-! ## What writes the sample register -/

/-- An event that leaves `sample_valid = 0` is a mismatch: it wrote neither `sample_valid` nor `sample_data` (R77). -/
theorem raisedAt_of_not_valid {acc : List Byte} {h : Nat} {s : State} (hv : (raisedAt acc h s).sampleValid = false) :
    s.sampleValid = false ∧ (raisedAt acc h s).sampleData = s.sampleData := by
  unfold raisedAt at hv ⊢
  split
  case isTrue hc => simp [hc, raiseSample_eq] at hv
  case isFalse hc =>
    rw [if_neg hc] at hv
    exact ⟨hv, rfl⟩

/-- A pass that leaves `sample_valid = 0`, from whatever state, wrote neither `sample_valid` nor `sample_data`: no later
candidate ends the pulse of an earlier one (R76, R77). -/
theorem pass_of_not_valid {s t : State} (ht : pass s = .next t) (hv : t.sampleValid = false) :
    s.sampleValid = false ∧ t.sampleData = s.sampleData := by
  obtain ⟨u, hu, hkeep⟩ := pass_induction
    (fun s t => t.sampleValid = false → s.sampleValid = false ∧ t.sampleData = s.sampleData)
    (short := fun _ _ hv => ⟨hv, rfl⟩)
    (trim := fun _ _ _ hv => ⟨hv, rfl⟩)
    (wait := fun _ _ _ _ hv => ⟨hv, rfl⟩)
    (candidate := fun s t h _ _ ih hv => by
      obtain ⟨hraised, hdata⟩ := ih hv
      obtain ⟨hs, hsame⟩ := raisedAt_of_not_valid hraised
      exact ⟨hs, hdata.trans hsame⟩) s
  cases hu.symm.trans ht
  exact hkeep hv

/-- A command that leaves `sample_valid = 0` leaves `sample_data` as it was, from whatever state (R89). -/
theorem exec_sampleData_of_not_valid {i : Instr} {s t : State} (ht : exec i s = .next t)
    (hv : t.sampleValid = false) : t.sampleData = s.sampleData := by
  cases i with
  | nop d => cases ht; rfl
  | clear d => cases ht; rfl
  | reserved d => cases ht; rfl
  | push b =>
    obtain ⟨-, hdata⟩ := pass_of_not_valid ((execPush_eq b s).symm.trans ht) hv
    exact hdata

/-! ## The sample register over a run -/

/-- The last sample that events decode, or the given one if they decode none (R89). -/
def lastSample (evs : List Event) (d : SampleBus) : SampleBus := (evs.filterMap decodedSample).getLast?.getD d

theorem lastSample_append (evs evs' : List Event) (d : SampleBus) :
    lastSample (evs ++ evs') d = lastSample evs' (lastSample evs d) := by
  simp [lastSample, List.getLast?_append, Option.getD_or]

/-- The ports of one cycle show the sample of the register exactly when `sample_valid = 1` (R92). -/
theorem lastSample_portEvents (t : State) (d : SampleBus) :
    lastSample (portEvents (ports t)) d = if t.sampleValid then t.sampleData else d := by
  obtain ⟨hv, he, hd⟩ := ports_pulses t
  rw [lastSample, portEvents, hv, he, hd]
  cases t.sampleValid <;> cases t.frameErr <;> rfl

/-- After an edge with `rst = 0` the register holds the sample that the ports show, or what it held before (R89). -/
theorem step_sampleData {s t : State} {e : Edge} {rest : List Edge} (hp : s.pending = e :: rest) (hr : e.rst = false)
    (ht : step s = .next t) : t.sampleData = lastSample (portEvents (ports t)) s.sampleData := by
  rw [lastSample_portEvents]
  obtain ⟨hrst, -⟩ | ⟨-, -, hx⟩ := step_cases hp ht
  · simp [hr] at hrst
  · cases hv : t.sampleValid with
    | true => rfl
    | false => exact exec_sampleData_of_not_valid (s := s.withPending rest) hx hv

/-- A conforming run without `rst` completes, and leaves in the register the last sample of its events, or what it held
at the start (R89). -/
theorem run_sampleData {s : State} (hs : Conforming s) (hrst : ∀ e ∈ s.pending, e.rst = false) :
    ∃ t evs, afterEdges s.pending.length s = .next t ∧ runEvents s = .next evs ∧
      t.sampleData = lastSample evs s.sampleData := by
  generalize hp : s.pending = es at hrst ⊢
  induction es generalizing s with
  | nil =>
    refine ⟨s, [], rfl, ?_, rfl⟩
    simp [runEvents, edgeEvents, observed, hp, observations]
  | cons e rest ih =>
    rw [List.forall_mem_cons] at hrst
    obtain ⟨t, ht, hrun, htp, -, hconf⟩ := conforming_runStep hs hp
    obtain ⟨u, evs, hafter, hruns, hdata⟩ := ih hconf htp hrst.2
    refine ⟨u, portEvents (ports t) ++ evs, ?_, ?_, ?_⟩
    · rw [List.length_cons, afterEdges, hrun, thenNext_next, hafter]
    · rw [runEvents_cons hp hrun htp, hruns, thenNext_next]
    · rw [lastSample_append, ← step_sampleData hp hrst.1 ht, hdata]

/-- Settles O35: a command that leaves `sample_valid = 0` keeps the register, and only a PUSH leaves it 1; so along a
run the register follows the samples that the ports show. -/
theorem sampleDataHoldsTheLastSample : Obligations.SampleDataHoldsTheLastSample := by
  refine ⟨fun s t e rest hp ht hne => ?edge, fun c es _ hes => ?run⟩
  case edge =>
    obtain ⟨hr, -⟩ | ⟨-, -, hx⟩ := step_cases hp ht
    · exact .inl hr
    · have hv : t.sampleValid = true := by
        simpa using mt (exec_sampleData_of_not_valid hx) hne
      obtain ⟨hq, -⟩ | hpush := exec_pulses_or_push hx
      · simp [hq] at hv
      · exact .inr ⟨hpush, hv⟩
  case run =>
    have hconf : Conforming (driven (State.resetWith c) es) := ⟨rfl, rfl, fun e he => (hes e he).2⟩
    exact run_sampleData hconf fun e he => (hes e he).1

end Sys2Proof.Machine
end

section
/-! The edges with `rst = 1`: one edge, and several in a row (R104, R105). -/

namespace Sys2Proof.Machine

/-! ## The reset action -/

/-- A reset leaves the reset values of the architectural state (R26, R105). -/
theorem arch_resetEdge (s : State) : arch (resetEdge s) = ([], false, false, 0) := rfl

/-- A reset neither reads nor changes the input to come. -/
theorem resetEdge_withPending (es : List Edge) (s : State) :
    resetEdge (s.withPending es) = (resetEdge s).withPending es := rfl

/-- A second reset changes nothing (R104). -/
theorem resetEdge_resetEdge (s : State) : resetEdge (resetEdge s) = resetEdge s := rfl

/-- An edge with `rst = 1` in front of the input, whatever word is on `cmd`. -/
theorem step_rstEdge (s : State) (w : Cmd) (rest : List Edge) :
    step (s.withPending (rstEdge w :: rest)) = .next ((resetEdge s).withPending rest) := by
  rw [step_of_rst rfl rfl, State.withPending_withPending, resetEdge_withPending]

/-- Settles O6: such an edge performs no word and marks the reset, so the next one performs its own word. -/
theorem resetActionTakesPriority : Obligations.ResetActionTakesPriority := by
  refine ⟨fun s e rest hp hr => ?values, fun s w w' rest => ?lost⟩
  case values => exact ⟨_, step_of_rst hp hr, arch_resetEdge _, rfl, rfl⟩
  case lost =>
    exact ⟨_, step_rstEdge s w _, arch_resetEdge s, step_of_command (e := { rst := false, cmd := w' }) rfl rfl rfl⟩

/-! ## Holding `rst` -/

/-- A run that holds no reserved word goes past an edge with `rst = 1`, whatever word is on `cmd` (R87, R105). -/
theorem runStep_rstEdge {s : State} (hs : s.reservedSeen = false) (w : Cmd) (rest : List Edge) :
    runStep (s.withPending (rstEdge w :: rest)) = .next ((resetEdge s).withPending rest) := by
  have hseen : ((resetEdge s).withPending rest).reservedSeen = false := hs
  rw [runStep, step_rstEdge, thenNext_next, hseen, if_neg Bool.false_ne_true]

/-- As many edges with `rst = 1` as one likes, at least one, leave in a run what one reset leaves (R104). -/
theorem afterEdges_map_rstEdge {s : State} (hs : s.reservedSeen = false) {ws : List Cmd} (hws : ws ≠ [])
    (rest : List Edge) :
    afterEdges ws.length (s.withPending (ws.map rstEdge ++ rest)) = .next ((resetEdge s).withPending rest) := by
  induction ws generalizing s with
  | nil => exact absurd rfl hws
  | cons w ws ih =>
    rw [List.length_cons, List.map_cons, List.cons_append, afterEdges, runStep_rstEdge hs, thenNext_next]
    obtain rfl | hws := eq_or_ne ws []
    · rfl
    · have hs' : (resetEdge s).reservedSeen = false := hs
      rw [ih hs' hws, resetEdge_resetEdge]

/-- Settles O8: the reset action is idempotent and leaves the rest of the input alone, so a row of edges with `rst = 1`
leaves what one of them leaves. -/
theorem holdingResetIsOneReset : Obligations.HoldingResetIsOneReset := by
  refine ⟨fun s w w' rest => ?second, fun s w ws rest hws hs => ?run⟩
  case second =>
    refine ⟨_, _, step_rstEdge s w _, step_rstEdge (resetEdge s) w' rest, ?_, ?_, arch_resetEdge _⟩
    · rw [resetEdge_resetEdge, State.withPending_withPending]
    · rw [resetEdge_resetEdge, step_rstEdge]
  case run =>
    have hone : afterEdges 1 (s.withPending (rstEdge w :: rest)) = .next ((resetEdge s).withPending rest) :=
      afterEdges_map_rstEdge (ws := [w]) hs (List.cons_ne_nil w []) rest
    exact ⟨⟨_, hone, arch_resetEdge s⟩, (afterEdges_map_rstEdge hs hws rest).trans hone.symm⟩

end Sys2Proof.Machine
end

section
/-! The word of a command and the command of a word (R42 to R47), and the words of assembler lines (R50 to R52, R54). -/

namespace Sys2Proof

/-! ## Decoding undoes encoding -/

/-- Encoding drops no bit: the command of a command's word is that command. -/
theorem decodeWord_encode (i : Instr) : decodeWord (encode i) = i := by
  cases i with
  | nop d => rw [decodeWord_of_op00 (opField_encode _), dataField_encode]; rfl
  | push b => rw [decodeWord_of_op01 (opField_encode _), dataField_encode]; rfl
  | clear d => rw [decodeWord_of_op10 (opField_encode _), dataField_encode]; rfl
  | reserved d => rw [decodeWord_of_op11 (opField_encode _), dataField_encode]; rfl

/-- Settles O1: the two fields of a word fix its command, and the command keeps both. -/
theorem decodeEncodeAgree : Obligations.DecodeEncodeAgree := ⟨decodeWord_encode, encode_decodeWord⟩

/-- The decoder on the number of a command's word. -/
theorem decode_encode (i : Instr) : decode (encode i).toNat = .ok i := by
  have hlt : (encode i).toNat < 1024 := (encode i).isLt
  rw [decode, if_pos hlt, BitVec.ofNat_toNat, BitVec.setWidth_eq, decodeWord_encode]

/-- A number that no 10 bits write is refused (R42). -/
theorem decode_of_wide {w : Nat} (hw : 1024 ≤ w) : decode w = .error (.widerThanCmd w) :=
  if_neg (Nat.not_lt.mpr hw)

/-- Settles O3: each of the six numbers is that of its command's word, and 1024 is the least that is none. -/
theorem wordsOfEachOpDecode : Obligations.WordsOfEachOpDecode :=
  ⟨decode_encode (.nop 0), decode_encode (.push 0x24), decode_encode (.push 0xA2), decode_encode (.clear 0),
    decode_encode (.clear 0xA5), decode_encode (.reserved 0xFF), decode_of_wide (le_refl _)⟩

/-- The commands that do not conform are those of the words with `op = 11` (R46). -/
theorem not_conforming_decodeWord (w : Cmd) : (!(decodeWord w).conforming) = (opField w == 0b11#2) := by
  obtain h | h | h | h := opBits_cases (opField w)
  · rw [decodeWord_of_op00 h, h]; rfl
  · rw [decodeWord_of_op01 h, h]; rfl
  · rw [decodeWord_of_op10 h, h]; rfl
  · rw [decodeWord_of_op11 h, h]; rfl

/-- The reserved words are those from `0x300` on (R45). -/
theorem opField_eq_reserved_iff (w : Cmd) : opField w = 0b11#2 ↔ 0x300 ≤ w.toNat := by
  rw [← BitVec.toNat_inj, opField_toNat, show (0b11#2).toNat = 3 from rfl]
  omega

namespace Machine

/-! ## Operands -/

theorem immValue_lt {b : Imm} (hb : b.wf = true) : immValue b < 256 := by
  cases b with
  | num n => exact of_decide_eq_true hb
  | chr c => exact lt_trans (of_decide_eq_true hb) (by decide)

/-- The PUSH word of an operand in range is `0x100 | n` (R50). -/
theorem encode_push_immByte {b : Imm} (hb : b.wf = true) :
    encode (.push (immByte b)) = 0x100 ||| BitVec.ofNat 10 (immValue b) := by
  have hlt := immValue_lt hb
  have hext : (immByte b).zeroExtend 10 = BitVec.ofNat 10 (immValue b) := by
    apply BitVec.eq_of_toNat_eq
    simp [immByte]
    omega
  rw [encode_push, hext]

/-- The PUSH words of operands in range (R51). -/
theorem pushWords_map_immByte {bs : List Imm} (hbs : ∀ b, b ∈ bs → b.wf = true) :
    pushWords (bs.map immByte) = bs.map (fun b => 0x100 ||| BitVec.ofNat 10 (immValue b)) := by
  rw [pushWords, List.map_map]
  exact List.map_congr_left fun b hb => encode_push_immByte (hbs b hb)

/-! ## Lines -/

theorem assemble_push_of_wf {b : Imm} (hb : b.wf = true) :
    assemble (.push b) = .ok [0x100 ||| BitVec.ofNat 10 (immValue b)] := by
  rw [assemble_of_error_none (a := .push b) (if_pos hb), expand, encode_push_immByte hb]

theorem assemble_push_of_not_wf {b : Imm} (hb : b.wf = false) : assemble (.push b) = .error .imm8OutOfRange := by
  simp [assemble, Asm.error, hb]

theorem assemble_pushb {bs : List Imm} (hne : bs ≠ []) (hbs : ∀ b, b ∈ bs → b.wf = true) :
    assemble (.pushb bs) = .ok (bs.map (fun b => 0x100 ||| BitVec.ofNat 10 (immValue b))) := by
  have herr : (Asm.pushb bs).error = none := by simp [Asm.error, hne, List.all_eq_true.mpr hbs]
  rw [assemble_of_error_none herr, expand, pushWords_map_immByte hbs]

/-- The words of a text are those of its characters as operands (R52). -/
theorem assemble_pushs {t : List Char} (ht : ∀ c, c ∈ t → c.toNat < 128) :
    assemble (.pushs t) = .ok (t.map (fun c => 0x100 ||| BitVec.ofNat 10 c.toNat)) := by
  have herr : (Asm.pushs t).error = none := by simpa [Asm.error] using ht
  have hwords := pushWords_map_immByte (bs := t.map .chr) (by simpa [Imm.wf] using ht)
  rw [List.map_map, List.map_map] at hwords
  rw [assemble_of_error_none herr]
  exact congrArg Except.ok hwords

theorem assemble_idle (n : Nat) : assemble (.idle n) = .ok (List.replicate n 0x000) := rfl

theorem assemble_word {w : Nat} (hw : w < 1024) : assemble (.word w) = .ok [BitVec.ofNat 10 w] :=
  assemble_of_error_none (a := .word w) (if_pos hw)

/-- The assembler warns of exactly the reserved words (R50). -/
theorem warns_word_iff {w : Nat} (hw : w < 1024) : warns (.word w) = true ↔ 0x300 ≤ w := by
  rw [warns, not_conforming_decodeWord, beq_iff_eq, opField_eq_reserved_iff, BitVec.toNat_ofNat, Nat.mod_eq_of_lt hw]

/-- Settles O49: an operand is in range or it is not, PUSHB and PUSHS are the PUSH words of their operands, and a word
is reserved by its `op`. -/
theorem assemblerLines : Obligations.AssemblerLines :=
  ⟨fun n hn => assemble_push_of_wf (b := .num n) (decide_eq_true hn),
    fun n hn => assemble_push_of_not_wf (b := .num n) (decide_eq_false (Nat.not_lt.mpr hn)),
    fun c hc => assemble_push_of_wf (b := .chr c) (decide_eq_true hc),
    fun c hc => assemble_push_of_not_wf (b := .chr c) (decide_eq_false (Nat.not_lt.mpr hc)),
    assemble_push_of_wf (b := .chr '$') rfl,
    fun _ => assemble_pushb,
    fun _ => assemble_pushs,
    assemble_pushs (t := ['$', 'D', 'C']) (by simp),
    assemble_idle,
    fun _ hw => ⟨assemble_word hw, warns_word_iff hw⟩⟩

end Machine

end Sys2Proof
end

section
/-! What one edge does and keeps (R13, R28, R46, R105, R113), and the commands as steps (R37, R68, R87). -/

namespace Sys2Proof.Machine

/-! ## The next edge -/

/-- The table's word of a command, put on the port, is that command's edge (R42). -/
theorem withFetchWord_encode (s : State) (i : Instr) :
    s.withFetchWord 16 (encode i).toNat = s.withPending (commandEdge i :: s.pending) := by
  have hbits : tableBits 16 (encode i).toNat = (encode i).toNat := Nat.mod_eq_of_lt (by omega)
  rw [State.withFetchWord, withTableWord, hbits, BitVec.ofNat_toNat, BitVec.setWidth_eq]
  rfl

theorem decodeWord_commandEdge (i : Instr) : decodeWord (commandEdge i).cmd = i := decodeWord_encode i

/-- An edge in front of the input that carries a command performs it, once there has been an `rst` (R113). -/
theorem step_commandEdge {s : State} (hd : s.resetDone = true) (i : Instr) (rest : List Edge) :
    step (s.withPending (commandEdge i :: rest)) = exec i (s.withPending rest) := by
  have hstep := step_of_command (s := s.withPending (commandEdge i :: rest)) rfl hd rfl
  rwa [decodeWord_commandEdge, State.withPending_withPending] at hstep

/-- Settles O5: an edge with `rst = 0` performs its word, and a table word is such an edge. -/
theorem stepRunsTheDecodedCommand : Obligations.StepRunsTheDecodedCommand := by
  refine ⟨fun s e rest i hd hp hr hi => ?edge, fun s i hd => ?tableWord⟩
  case edge => rw [step_of_command hp hd hr, hi]
  case tableWord => rw [withFetchWord_encode, step_commandEdge hd, State.withPending_self]

/-- Settles O10: an edge completes, or it comes before the first `rst` and is refused by that name. -/
theorem stepWithoutEdgeRefused : Obligations.StepWithoutEdgeRefused := by
  refine fun s => ⟨fun h => ?refused, fun hp => by simp [step, hp]⟩
  case refused =>
    cases hp : s.pending with
    | nil => rfl
    | cons e rest =>
      by_cases hb : s.resetDone = true ∨ e.rst = true
      · obtain ⟨t, ht, -⟩ := step_frame hp hb
        simp [ht] at h
      · obtain ⟨hd, hr⟩ := not_or.mp hb
        simp [step_of_beforeReset hp (by simpa using hd) (by simpa using hr)] at h

/-- What a step that completes says of its edge, and what it keeps (R46, R87, R107). -/
theorem step_next_frame {s t : State} {e : Edge} {rest : List Edge} (hp : s.pending = e :: rest)
    (ht : step s = .next t) :
    (s.resetDone = true ∨ e.rst = true) ∧ t.pending = rest ∧ t.accCap = s.accCap ∧
      t.reservedSeen = (s.reservedSeen || !edgeConforming e) ∧ t.resetDone = true := by
  have hb : s.resetDone = true ∨ e.rst = true := by
    obtain ⟨hr, -⟩ | ⟨-, hd, -⟩ := step_cases hp ht
    · exact .inr hr
    · exact .inl hd
  obtain ⟨u, hu, hframe⟩ := step_frame hp hb
  cases hu.symm.trans ht
  exact ⟨hb, hframe⟩

/-! ## The reset state -/

/-- Where no reserved word is recorded, a reset leaves the reset state of the build, but for the input to come (R26). -/
theorem resetEdge_withPending_eq_driven {s : State} (hs : s.reservedSeen = false) (es : List Edge) :
    (resetEdge s).withPending es = driven (State.resetWith s.accCap) es := by
  rw [resetEdge_eq, hs]
  rfl

/-- Settles O7: the reset state is written with the table's values, and an edge with `rst = 1` leaves them. -/
theorem resetStateValues : Obligations.ResetStateValues := by
  refine ⟨fun c => ⟨rfl, accLevel_resetWith_toNat c, rfl⟩, rfl, fun s w hs => ?edge⟩
  case edge => rw [driven, step_rstEdge, resetEdge_withPending_eq_driven hs]; rfl

/-! ## What every edge keeps -/

/-- Settles O36: a reset empties the accumulator, and every command keeps its form. -/
theorem reachableFormKeptByEveryStep : Obligations.ReachableFormKeptByEveryStep := fun _ _ => step_inv

/-- Settles O37: the accumulator is empty at reset, and the default capacity is legal. -/
theorem reachableFormAtReset : Obligations.ReachableFormAtReset := by
  have hreset : ∀ c, 16 ≤ c → StateInv (State.resetWith c) := fun c hc => stateInv_of_acc_nil hc rfl
  exact ⟨hreset Config.accCapDefault (by decide), hreset⟩

/-- Settles O40: a step takes a conforming edge and leaves the others, and the record is only ever set. -/
theorem conformanceOfARunKept : Obligations.ConformanceOfARunKept := by
  refine ⟨fun s t hs ht => ?conforming, fun s t hs ht => ?recorded⟩
  all_goals obtain ⟨e, rest, hp⟩ := pending_of_step_next ht
  case conforming =>
    obtain ⟨u, hu, -, -, -, hconf⟩ := conforming_runStep hs hp
    cases hu.symm.trans ht
    exact hconf
  case recorded =>
    obtain ⟨-, -, -, hseen, -⟩ := step_next_frame hp ht
    rw [hseen, hs, Bool.true_or]

/-! ## The commands -/

/-- Settles O13: the next state that R87's pseudocode writes is the one stated, by definition. -/
theorem reservedActsAsNop : Obligations.ReservedActsAsNop := fun _ _ => rfl

/-- Settles O30: what the pass meets is written by cases on a full accumulator. -/
theorem pushMakesRoomAppendsAndPasses : Obligations.PushMakesRoomAppendsAndPasses := by
  refine fun b s => ⟨fun hfull => ?full, fun hroom => ?room⟩
  all_goals refine (execPush_eq b s).trans ?_
  case full => rw [pushedAcc, if_pos hfull]; rfl
  case room => rw [pushedAcc, if_neg hroom]; rfl

/-- With room for the byte and fewer than 15 bytes held, a PUSH only appends (R68 to R70). -/
theorem execPush_of_room {b : Byte} {s : State} (hl : s.acc.length < 15) (hc : 16 ≤ s.accCap) :
    execPush b s = .next ((s.withPulses false false).withAcc (s.acc ++ [b])) := by
  have hacc : pushedAcc b s = s.acc ++ [b] := by rw [pushedAcc, if_neg (by omega)]
  have hshort : (pushedAcc b s).length < 16 := by
    rw [hacc, List.length_append, List.length_singleton]
    omega
  rw [execPush_of_short hshort, hacc]

/-- Settles O15: NOP and CLEAR write constants, and two PUSHes below the length gate append two bytes. -/
theorem nopAndClearIdempotentPushNot : Obligations.NopAndClearIdempotentPushNot := by
  refine ⟨fun d d' s t ht => ?nop, fun d d' s t ht => ?clear, fun b s hl hc => ?push⟩
  case nop => cases ht; rfl
  case clear => cases ht; rfl
  case push =>
    refine ⟨_, _, execPush_of_room (by omega) hc, execPush_of_room ?_ hc, List.append_assoc ..⟩
    rw [State.withAcc_acc, List.length_append, List.length_singleton]
    omega

/-! ## The pass and the frame of a PUSH -/

/-- Settles O29: the pass is the bounded pass at R79's bound, above which the bound does not matter. -/
theorem passIterationsBounded : Obligations.PassIterationsBounded := fun _ _ hn => passWithin_eq_of_le hn (le_refl _)

theorem noFullFrame_of_short {a : List Byte} (hl : a.length < 16) : NoFullFrame a := fun _ _ => by omega

/-- A trim leaves no marker (R73). -/
theorem noFullFrame_trimmed {a : List Byte} (hf : findMarker a = none) : NoFullFrame (trimmed a) := by
  obtain ⟨n, -, htrim⟩ := trimmed_eq_drop a
  intro k hk
  simp [htrim, findMarker_drop_none hf] at hk

/-- A pass only removes bytes from the front, and leaves no complete candidate (R70 to R79). -/
theorem pass_acc (s : State) : ∃ t, pass s = .next t ∧ t.acc <:+ s.acc ∧ NoFullFrame t.acc := by
  refine pass_induction (fun s t => t.acc <:+ s.acc ∧ NoFullFrame t.acc)
    (short := fun s hl => ⟨List.suffix_rfl, noFullFrame_of_short hl⟩)
    (trim := fun s _ hf => ⟨?trim, noFullFrame_trimmed hf⟩)
    (wait := fun s h hf hl => ⟨List.suffix_rfl, ?wait⟩)
    (candidate := fun s t h _ _ ⟨hsuffix, hleft⟩ => ⟨?candidate, hleft⟩) s
  case trim =>
    obtain ⟨n, -, htrim⟩ := trimmed_eq_drop s.acc
    rw [accTrim_eq, State.withAcc_acc, htrim]
    exact List.drop_suffix n s.acc
  case wait =>
    intro k hk
    cases hf.symm.trans hk
    exact hl
  case candidate =>
    rw [accConsume_raisedAt_acc] at hsuffix
    exact hsuffix.trans (List.drop_suffix _ _)

/-- Making room removes at most the oldest byte (R68). -/
theorem pushedAcc_suffix (b : Byte) (s : State) : pushedAcc b s <:+ s.acc ++ [b] := by
  unfold pushedAcc
  split
  case isTrue =>
    obtain ⟨p, hp⟩ := List.drop_suffix 1 s.acc
    exact ⟨p, by rw [← List.append_assoc, hp]⟩
  case isFalse => exact List.suffix_rfl

/-- Settles O31: a PUSH keeps what every command keeps, writes the sample register only with `sample_valid`, and its
pass only removes bytes from the front. -/
theorem pushCompletesWithItsFrame : Obligations.PushCompletesWithItsFrame := by
  intro b s
  obtain ⟨t, ht, hp, hc, hseen, hd⟩ := exec_frame (.push b) s
  obtain ⟨u, hu, hsuffix, hleft⟩ := pass_acc ((s.withPulses false false).withAcc (pushedAcc b s))
  cases ((execPush_eq b s).trans hu).symm.trans ht
  exact ⟨t, ht, hc, hp, hseen.trans (Bool.or_false _), hd, exec_sampleData_of_not_valid ht,
    hsuffix.trans (pushedAcc_suffix b s), hleft⟩

end Sys2Proof.Machine
end

section
/-! Known answers of the checksum (R57, R58), and one changed byte of a well-formed frame (C5). -/

namespace Sys2Proof.Machine

/-- Settles O16: the kernel evaluates the checksum on the spec's examples. -/
theorem checksumKnownAnswers : Obligations.ChecksumKnownAnswers := by
  unfold Obligations.ChecksumKnownAnswers
  decide +kernel

/-! ## One changed byte -/

/-- A changed byte changes the fold: a step forgets neither the byte nor the register. -/
theorem getElem?_of_foldl_crcStep_set {bs : List Byte} {k : Nat} {x : Byte} {c : Crc} (hk : k < bs.length)
    (h : (bs.set k x).foldl crcStep c = bs.foldl crcStep c) : bs[k]? = some x := by
  induction bs generalizing k c with
  | nil => exact absurd hk (Nat.not_lt_zero k)
  | cons b bs ih =>
    cases k with
    | zero => rw [List.getElem?_cons_zero, crcStep_byte_injective (foldl_crcStep_injective h)]
    | succ k => exact ih (Nat.lt_of_succ_lt_succ hk) h

/-- A changed byte among the covered ones changes the computed checksum (R61). -/
theorem getElem?_of_crcCalc_set {f : List Byte} {k : Nat} {x : Byte} (hl : f.length = 16) (hk : k < 14)
    (h : crcCalc (f.set k x) = crcCalc f) : f[k]? = some x := by
  have hcover : (slice f 0 14).length = 14 := by simp [slice, hl]
  have hset : slice (f.set k x) 0 14 = (slice f 0 14).set k x := by simp [slice, List.take_set]
  rw [crcCalc, crcCalc, Config.crcCover, hset] at h
  have hbyte := getElem?_of_foldl_crcStep_set (hcover.symm ▸ hk) h
  rwa [getElem?_slice f (by omega), Nat.zero_add] at hbyte

/-- A byte behind the covered ones does not change the computed checksum (R61). -/
theorem crcCalc_set {f : List Byte} {k : Nat} (hk : 14 ≤ k) (x : Byte) : crcCalc (f.set k x) = crcCalc f := by
  rw [crcCalc, crcCalc, slice, slice, List.drop_zero, List.drop_zero, Config.crcCover, Nat.sub_zero,
    List.take_set_of_le hk]

theorem byteAt_set_same {a : List Byte} {k : Nat} (hk : k < a.length) (x : Byte) : byteAt (a.set k x) k = x :=
  byteAt_of_getElem? (List.getElem?_set_self hk)

theorem byteAt_set_other {a : List Byte} {k i : Nat} (hne : k ≠ i) (x : Byte) : byteAt (a.set k x) i = byteAt a i := by
  rw [byteAt, byteAt, List.getD_eq_getElem?_getD, List.getD_eq_getElem?_getD, List.getElem?_set_ne hne]

theorem getElem?_eq_some_byteAt {a : List Byte} {k : Nat} (hk : k < a.length) : a[k]? = some (byteAt a k) := by
  rw [byteAt_of_getElem? (List.getElem?_eq_getElem hk), List.getElem?_eq_getElem hk]

/-- The received checksum forgets neither of its bytes (R31). -/
theorem byteAt_of_crcRx_eq {f g : List Byte} (h : crcRx f = crcRx g) :
    byteAt f 14 = byteAt g 14 ∧ byteAt f 15 = byteAt g 15 := by
  rw [crcRx, crcRx, zext16_shiftLeft_or_zext16, zext16_shiftLeft_or_zext16] at h
  have hnum := congrArg BitVec.toNat h
  simp only [toNat_append_byte, Config.crcOff, Nat.reduceAdd] at hnum
  have hf := (byteAt f 15).isLt
  have hg := (byteAt g 15).isLt
  exact ⟨BitVec.eq_of_toNat_eq (by omega), BitVec.eq_of_toNat_eq (by omega)⟩

/-- A byte in front of the last two does not change the received checksum (R31). -/
theorem crcRx_set {f : List Byte} {k : Nat} (hk : k < 14) (x : Byte) : crcRx (f.set k x) = crcRx f := by
  rw [crcRx, crcRx, byteAt_set_other (by simp only [Config.crcOff]; omega),
    byteAt_set_other (by simp only [Config.crcOff]; omega)]

/-- A changed byte among the last two changes the received checksum (R31). -/
theorem getElem?_of_crcRx_set {f : List Byte} {k : Nat} {x : Byte} (hl : f.length = 16) (hk : k = 14 ∨ k = 15)
    (h : crcRx (f.set k x) = crcRx f) : f[k]? = some x := by
  have hlt : k < f.length := by omega
  obtain ⟨h14, h15⟩ := byteAt_of_crcRx_eq h
  have hbyte : byteAt (f.set k x) k = byteAt f k := by
    obtain rfl | rfl := hk
    · exact h14
    · exact h15
  rw [byteAt_set_same hlt] at hbyte
  rw [getElem?_eq_some_byteAt hlt, hbyte]

/-- A byte behind the marker does not change it. -/
theorem startsWithMarker_set {f : List Byte} {k : Nat} (hk : 3 ≤ k) (x : Byte) :
    startsWithMarker (f.set k x) = startsWithMarker f := by
  rw [startsWithMarker, startsWithMarker, Config.markerLen, List.take_set_of_le hk]

theorem wellFormedFrame_length {f : List Byte} (h : wellFormedFrame f = true) : f.length = 16 := by
  rw [wellFormedFrame, Bool.and_eq_true, Bool.and_eq_true] at h
  obtain ⟨⟨hl, -⟩, -⟩ := h
  exact of_decide_eq_true hl

/-- Settles O22: a changed byte among the first 14 changes the computed checksum and not the received one, and one of
the last two the other way round. -/
theorem anyOneByteCorruptionRejected : Obligations.AnyOneByteCorruptionRejected := by
  intro f k x hwf hk3 hk16 hne
  have hl := wellFormedFrame_length hwf
  obtain ⟨hm, hcrc⟩ := (wellFormedFrame_iff hl).mp hwf
  have hm' : startsWithMarker (f.set k x) = true := by rw [startsWithMarker_set hk3, hm]
  rw [validateAndDecode_of_precondition (by rw [List.length_set, hl]) hm', if_neg]
  intro heq
  apply hne
  by_cases hk : k < 14
  · rw [crcRx_set hk, hcrc] at heq
    exact getElem?_of_crcCalc_set hl hk heq
  · rw [crcCalc_set (by omega), ← hcrc] at heq
    exact getElem?_of_crcRx_set hl (by omega) heq.symm

end Sys2Proof.Machine
end

section
/-! Which runs complete and which are refused (R87, R90, R107), and the observation of a conforming run (R93, R98). -/

namespace Sys2Proof.Machine

/-! ## A refused run -/

/-- The run of a state's whole input is refused by a name: its last state, its observation and its events alike. -/
def RunRefused (r : Refusal) (s : State) : Prop :=
  afterEdges s.pending.length s = .refused r ∧ observed s = .refused r ∧ edgeEvents s = .refused r ∧
    runEvents s = .refused r

/-- The events of a run are read off its observation, so they are refused with it. -/
theorem runRefused_of_observed {r : Refusal} {s : State} (ha : afterEdges s.pending.length s = .refused r)
    (ho : observed s = .refused r) : RunRefused r s := by
  have he : edgeEvents s = .refused r := by rw [edgeEvents, ho, thenNext_refused]
  exact ⟨ha, ho, he, by rw [runEvents, he, thenNext_refused]⟩

/-- The observation of an input by its first edge, where the run goes past it. -/
theorem observed_cons {s t : State} {e : Edge} {rest : List Edge} (hp : s.pending = e :: rest)
    (ht : runStep s = .next t) (htp : t.pending = rest) :
    observed s = thenNext (observed t) (fun ps => .next (ports t :: ps)) := by
  rw [observed, observed, hp, htp, List.length_cons, observations, ht, thenNext_next]

/-- The last state of an input by its first edge, where the run goes past it. -/
theorem afterEdges_cons {s t : State} {e : Edge} {rest : List Edge} (hp : s.pending = e :: rest)
    (ht : runStep s = .next t) (htp : t.pending = rest) :
    afterEdges s.pending.length s = afterEdges t.pending.length t := by
  rw [hp, htp, List.length_cons, afterEdges, ht, thenNext_next]

/-- A run that is refused at its first edge is refused. -/
theorem runRefused_of_runStep {r : Refusal} {s : State} {e : Edge} {rest : List Edge} (hp : s.pending = e :: rest)
    (hr : runStep s = .refused r) : RunRefused r s :=
  runRefused_of_observed (by rw [hp, List.length_cons, afterEdges, hr, thenNext_refused])
    (by rw [observed, hp, List.length_cons, observations, hr, thenNext_refused])

/-- A run that is refused after its first edge is refused. -/
theorem RunRefused.of_rest {r : Refusal} {s t : State} {e : Edge} {rest : List Edge} (h : RunRefused r t)
    (hp : s.pending = e :: rest) (ht : runStep s = .next t) (htp : t.pending = rest) : RunRefused r s := by
  obtain ⟨ha, ho, -, -⟩ := h
  exact runRefused_of_observed (by rw [afterEdges_cons hp ht htp, ha])
    (by rw [observed_cons hp ht htp, ho, thenNext_refused])

/-! ## Runs with a reserved word -/

/-- The edges that do not conform are those that perform a word with `op = 11` (R46; log 12). -/
theorem not_edgeConforming (e : Edge) : (!edgeConforming e) = (!e.rst && opField e.cmd == 0b11#2) := by
  rw [edgeConforming, Bool.not_or, not_conforming_decodeWord]

theorem edgeConforming_eq_false_iff (e : Edge) :
    edgeConforming e = false ↔ e.rst = false ∧ opField e.cmd = 0b11#2 := by
  rw [← Bool.not_eq_true', not_edgeConforming, Bool.and_eq_true, Bool.not_eq_true', beq_iff_eq]

theorem startsWithReset_cons {s : State} {e : Edge} {rest : List Edge} (hp : s.pending = e :: rest) :
    startsWithReset s = true ↔ s.resetDone = true ∨ e.rst = true := by
  simp [startsWithReset, hp]

/-- A run that holds a reserved word is refused, wherever the word stands (R46, R87). -/
theorem runRefused_of_reserved {s : State} (hstart : startsWithReset s = true)
    (h : s.reservedSeen = true ∧ s.pending ≠ [] ∨ ∃ e ∈ s.pending, edgeConforming e = false) :
    RunRefused .reservedInRun s := by
  generalize hp : s.pending = es at h
  induction es generalizing s with
  | nil => simp at h
  | cons e rest ih =>
    have hb := (startsWithReset_cons hp).mp hstart
    by_cases hr : s.reservedSeen = true ∨ edgeConforming e = false
    · exact runRefused_of_runStep hp (runStep_of_reserved hp hb hr)
    · obtain ⟨hseen, he⟩ := not_or.mp hr
      obtain ⟨t, -, hrun, htp, -, -, htd⟩ :=
        runStep_of_conforming hp hb (by simpa using hseen) (by simpa using he)
      have hlater : ∃ e ∈ rest, edgeConforming e = false := by simpa [hseen, he] using h
      exact (ih (by simp [startsWithReset, htd]) htp (.inr hlater)).of_rest hp hrun htp

/-- Settles O50: a step records exactly a reserved word that it performs, and a run goes past no such edge and past no
edge after it. -/
theorem runsWithAReservedWordRefused : Obligations.RunsWithAReservedWordRefused := by
  refine ⟨fun s t e rest hp ht => ?record, fun s es hstart h => ?run⟩
  case record =>
    obtain ⟨-, -, -, hseen, -⟩ := step_next_frame hp ht
    rw [hseen, not_edgeConforming]
  case run =>
    simp only [← edgeConforming_eq_false_iff] at h
    exact runRefused_of_reserved (s := driven s es) hstart h

/-! ## Runs and the first `rst` -/

/-- The events of a run whose first edge shows none are those of the rest. -/
theorem runEvents_of_quiet {s t : State} {e : Edge} {rest : List Edge} (hp : s.pending = e :: rest)
    (ht : runStep s = .next t) (htp : t.pending = rest) (hq : portEvents (ports t) = []) :
    runEvents s = runEvents t := by
  rw [runEvents_cons hp ht htp, hq]
  cases runEvents t <;> rfl

/-- A run goes on from an edge with `rst = 1` as from the reset state of the build (R26, R107). -/
theorem runStep_rstEdge_eq_reset {s : State} (hs : s.reservedSeen = false) (w : Cmd) (es : List Edge) :
    runStep (driven s (rstEdge w :: es)) = .next (driven (State.resetWith s.accCap) es) := by
  rw [driven, runStep_rstEdge hs, resetEdge_withPending_eq_driven hs]

theorem runEvents_rstEdge {s : State} (hs : s.reservedSeen = false) (w : Cmd) (es : List Edge) :
    runEvents (driven s (rstEdge w :: es)) = runEvents (driven (State.resetWith s.accCap) es) :=
  runEvents_of_quiet rfl (runStep_rstEdge_eq_reset hs w es) rfl rfl

/-- Settles O51: before the first `rst` the first edge is refused, an `rst` leaves the reset state of the build, and no
other step completes before it. -/
theorem runsNotStartedByResetRefused : Obligations.RunsNotStartedByResetRefused := by
  refine ⟨fun s e es hd hr => ?refused, fun s w es hs => ⟨?after, runEvents_rstEdge hs w es⟩, fun s t ht => ?step⟩
  case refused =>
    have hp : (driven s (e :: es)).pending = e :: es := rfl
    exact ⟨step_of_beforeReset hp hd hr, runRefused_of_runStep hp (runStep_of_beforeReset hp hd hr)⟩
  case after => rw [afterEdges, runStep_rstEdge_eq_reset hs, thenNext_next]
  case step =>
    obtain ⟨e, rest, hp⟩ := pending_of_step_next ht
    obtain ⟨hb, -, -, -, hd⟩ := step_next_frame hp ht
    exact ⟨hd, (startsWithReset_cons hp).mpr hb⟩

/-! ## Runs that complete -/

/-- A conforming run completes (R90). -/
theorem conforming_run_completes {s : State} {es : List Edge} (hs : Conforming (driven s es)) :
    ∃ t, afterEdges es.length (driven s es) = .next t ∧ t.pending = [] := by
  obtain ⟨t, ht, htp, -⟩ := conforming_afterEdges_induction (P := fun _ => True) (fun _ _ _ _ => trivial) hs trivial
  exact ⟨t, ht, htp⟩

/-- A run that starts with `rst` and has an edge either conforms or holds a reserved word (R46, R107). -/
theorem conforming_or_reserved {s : State} (hstart : startsWithReset s = true) (hne : s.pending ≠ []) :
    Conforming s ∨ s.reservedSeen = true ∧ s.pending ≠ [] ∨ ∃ e ∈ s.pending, edgeConforming e = false := by
  by_cases hseen : s.reservedSeen = true
  · exact .inr (.inl ⟨hseen, hne⟩)
  · by_cases hall : ∀ e ∈ s.pending, edgeConforming e = true
    · exact .inl ⟨hstart, by simpa using hseen, hall⟩
    · exact .inr (.inr (by simpa using hall))

/-- Settles O9: an edge completes once there has been an `rst`, and a run that starts with it conforms or holds a
reserved word. -/
theorem everyEdgeCompletes : Obligations.EveryEdgeCompletes := by
  refine ⟨fun s e rest hp hb => ?edge, fun s es hstart => ?run, fun s es => conforming_run_completes⟩
  case edge =>
    obtain ⟨t, ht, htp, htc, -, htd⟩ := step_frame hp hb
    exact ⟨t, ht, htp, htc, htd⟩
  case run =>
    obtain rfl | hne := eq_or_ne es []
    · exact .inl ⟨_, rfl, rfl⟩
    · obtain hconf | hreserved := conforming_or_reserved hstart hne
      · exact .inl (conforming_run_completes hconf)
      · obtain ⟨hrefused, -⟩ := runRefused_of_reserved hstart hreserved
        exact .inr hrefused

/-! ## The observation of a conforming run -/

/-- Every edge from a reachable state leaves at most one pulse at 1 (R93). -/
theorem step_pulsesExclusive {s t : State} (hi : StateInv s) (ht : step s = .next t) : PulsesExclusive t := by
  obtain ⟨e, rest, hp⟩ := pending_of_step_next ht
  obtain ⟨-, rfl⟩ | ⟨-, -, hx⟩ := step_cases hp ht
  · exact fun hpulses => Bool.false_ne_true hpulses.1
  · obtain ⟨hv, -⟩ | ⟨b, hb⟩ := exec_pulses_or_push hx
    · simp [PulsesExclusive, hv]
    · rw [hb] at hx
      exact execPush_pulsesExclusive (s := s.withPending rest) hi hx

/-- A conforming run from a reachable state is observed once an edge, and never with both pulses at 1 (R93, R98). -/
theorem conforming_observed {s : State} (hs : Conforming s) (hi : StateInv s) :
    ∃ ps, observed s = .next ps ∧ ps.length = s.pending.length ∧
      ∀ p ∈ ps, ¬ (p.sampleValid = true ∧ p.frameErr = true) := by
  generalize hp : s.pending = es
  induction es generalizing s with
  | nil => exact ⟨[], by rw [observed, hp]; rfl, rfl, by simp⟩
  | cons e rest ih =>
    obtain ⟨t, ht, hrun, htp, -, hconf⟩ := conforming_runStep hs hp
    obtain ⟨ps, hps, hlen, hall⟩ := ih hconf (step_inv hi ht) htp
    refine ⟨ports t :: ps, by rw [observed_cons hp hrun htp, hps, thenNext_next], by simp [hlen], ?_⟩
    exact List.forall_mem_cons.mpr ⟨step_pulsesExclusive hi ht, hall⟩

/-- Settles O39: the pulses exclude each other after every edge from a reachable state, and a conforming run from reset
passes through no other. -/
theorem pulsesNeverTogether : Obligations.PulsesNeverTogether := by
  refine ⟨fun _ _ => step_pulsesExclusive, fun c es hc hes => ?run⟩
  case run =>
    have hconf : Conforming (driven (State.resetWith c) es) := ⟨rfl, rfl, hes⟩
    exact conforming_observed hconf (stateInv_of_acc_nil hc rfl)

end Sys2Proof.Machine
end

section
/-! The events of a run that starts afresh (R86, R109), and of streams of frames, garbage and rejected candidates (R80,
R115). -/

namespace Sys2Proof.Machine

/-! ## Streams on a block that runs -/

/-- The events of bytes pushed on a running state are those of the bytes held and the bytes pushed (R82). -/
theorem runEvents_chunk {s : State} (hs : Running s) (B : List Byte) :
    runEvents (driven s (chunkEdges B)) = .next (extract (s.acc ++ B)) := by
  rw [runEvents_eq_extract hs isPushOrNop_of_mem_chunkEdges, pushedBytes_chunkEdges]

theorem runEvents_chunk_resetWith {c : Nat} (hc : 16 ≤ c) (B : List Byte) :
    runEvents (driven (State.resetWith c) (chunkEdges B)) = .next (extract B) :=
  runEvents_chunk (running_resetWith hc) B

/-- A run goes past a CLEAR, which leaves the accumulator empty and the pulses 0 (R86). -/
theorem runStep_clear {s : State} (hd : s.resetDone = true) (hs : s.reservedSeen = false) (d : Byte)
    (es : List Edge) :
    runStep (driven s (commandEdge (.clear d) :: es)) =
      .next (driven ((s.withPulses false false).withAcc []) es) := by
  have hstep : step (driven s (commandEdge (.clear d) :: es)) =
      .next (driven ((s.withPulses false false).withAcc []) es) := step_commandEdge hd (.clear d) es
  have hseen : (driven ((s.withPulses false false).withAcc []) es).reservedSeen = false := hs
  rw [runStep, hstep, thenNext_next, hseen, if_neg Bool.false_ne_true]

/-- Settles O44: CLEAR and `rst` both leave a running state that holds nothing, and show no event. -/
theorem clearAndResetStartAfresh : Obligations.ClearAndResetStartAfresh := by
  refine fun s d w B hc hs => ⟨fun hd => ?clear, ?rst⟩
  case clear =>
    have hrunning : Running ((s.withPulses false false).withAcc []) := ⟨stateInv_of_acc_nil hc rfl, hd, hs⟩
    rw [runEvents_of_quiet rfl (runStep_clear hd hs d _) rfl rfl, runEvents_chunk hrunning]
    rfl
  case rst => rw [runEvents_rstEdge hs, runEvents_chunk_resetWith hc]

/-! ## Sixteen bytes that start with the marker -/

/-- A candidate in front of a stream goes with its event (R78, R82). -/
theorem reduces_of_startsWithMarker {cand : List Byte} (hl : cand.length = 16) (hm : startsWithMarker cand = true) :
    Reduces cand 16 [(0, candidateEvent cand)] [] := by
  have hf : findMarker cand = some 0 := findMarker_eq_some_iff.mpr ⟨hm, fun i hi => absurd hi (Nat.not_lt_zero i)⟩
  have hcand : candidateAt cand 0 = cand := List.take_of_length_le (by simp [hl])
  have hred := reduces_candidate hf (by omega)
  rwa [hcand, List.drop_eq_nil_of_le (by omega)] at hred

/-- The event of a candidate goes by its being well-formed (R60, R76, R77). -/
theorem candidateEvent_eq {cand : List Byte} (hl : cand.length = 16) (hm : startsWithMarker cand = true) :
    candidateEvent cand =
      if wellFormedFrame cand then .sampleDecoded (pack (payloadOf cand)) else .checksumMismatch := by
  have hiff : wellFormedFrame cand = true ↔ crcCalc cand = crcRx cand := by
    rw [wellFormedFrame_iff hl, and_iff_right hm, eq_comm]
  rw [candidateEvent, validateAndDecode_of_precondition hl hm]
  by_cases hc : crcCalc cand = crcRx cand
  · rw [if_pos hc, if_pos (hiff.mpr hc)]
  · rw [if_neg hc, if_neg (mt hiff.mp hc)]

theorem frameOf_length {p : List Byte} (hp : p.length = 11) : (frameOf p).length = 16 := frameWith_length hp _

theorem startsWithMarker_frameOf (p : List Byte) : startsWithMarker (frameOf p) = true := startsWithMarker_frameWith p _

/-- A frame in front of a stream goes with its sample (R53, R76). -/
theorem reduces_frameOf {p : List Byte} (hp : p.length = 11) :
    Reduces (frameOf p) 16 [(0, .sampleDecoded (pack p))] [] := by
  have hred := reduces_of_startsWithMarker (frameOf_length hp) (startsWithMarker_frameOf p)
  have hpayload : payloadOf (frameOf p) = p := payloadOf_frameWith hp _
  rwa [candidateEvent_eq (frameOf_length hp) (startsWithMarker_frameOf p), if_pos (wellFormedFrame_frameOf hp),
    hpayload] at hred

/-- Settles O47: a rejected candidate goes whole, with its mismatch, and `Extract` goes on behind it. -/
theorem rejectionSkipsTheWholeCandidate : Obligations.RejectionSkipsTheWholeCandidate := by
  intro c cand B hc hl hslice hwf
  have hm := (startsWithMarker_iff_slice cand).mpr hslice
  refine ⟨extract B, runEvents_chunk_resetWith hc B, ?_⟩
  rw [runEvents_chunk_resetWith hc, (reduces_of_startsWithMarker hl hm).extract, candidateEvent_eq hl hm, hwf]
  rfl

/-! ## Garbage -/

/-- No marker starts in bytes that hold none, nor across their end, if a marker stands behind them: two markers do not
overlap (R72). -/
theorem startsWithMarker_drop_junk {junk f : List Byte} (hnone : findMarker junk = none)
    (hf : startsWithMarker f = true) {i : Nat} (hi : i < junk.length) :
    startsWithMarker ((junk ++ f).drop i) = false := by
  rw [← Bool.not_eq_true]
  intro hm
  have hbehind : startsWithMarker ((junk ++ f).drop junk.length) = true := by rwa [List.drop_left]
  have hapart := marker_add_three_le hm hbehind hi
  rw [List.drop_append_of_le_length hi.le, startsWithMarker_append_of_length (by rw [List.length_drop]; omega),
    findMarker_eq_none_iff.mp hnone i] at hm
  exact Bool.false_ne_true hm

/-- Settles O46: the garbage is skipped up to the frame's marker, and the frame goes with its sample. -/
theorem resynchronisesAfterGarbage : Obligations.ResynchronisesAfterGarbage := by
  intro c junk p hc hp hnone
  have hskip : extract (junk ++ frameOf p) = extract (frameOf p) := by
    rw [extract_drop (n := junk.length) (by rw [List.length_append]; omega)
      fun i => startsWithMarker_drop_junk hnone (startsWithMarker_frameOf p), List.drop_left]
  have hframe := (reduces_frameOf hp).extract []
  rw [List.append_nil] at hframe
  rw [runEvents_chunk_resetWith hc, hskip, hframe]
  rfl

/-! ## Frames back to back -/

/-- The events of a stream, one list for each of its bytes (R82). -/
def eventsByByte (B : List Byte) : List (List Event) :=
  (List.range B.length).map (eventsEndingAt (extractAt B))

theorem edgeEvents_chunk_resetWith {c : Nat} (hc : 16 ≤ c) (B : List Byte) :
    edgeEvents (driven (State.resetWith c) (chunkEdges B)) = .next (eventsByByte B) := by
  rw [edgeEvents_chunk (running_resetWith hc)]
  simp only [State.resetWith_acc, List.nil_append, List.length_nil, Nat.zero_add]
  rfl

/-- Sixteen bytes that give one event and go give it at the last of them, and the bytes behind them give their own
(R82). -/
theorem eventsByByte_append {f : List Byte} {ev : Event} (h : Reduces f 16 [(0, ev)] []) (B : List Byte) :
    eventsByByte (f ++ B) = List.replicate 15 [] ++ [[ev]] ++ eventsByByte B := by
  obtain ⟨hlen, hext⟩ := h
  have hfront : ∀ n < 16, eventsEndingAt (extractAt (f ++ B)) n = eventsEndingAt [(0, ev)] n := by
    intro n hn
    rw [hext, eventsEndingAt_append, eventsEndingAt_of_forall_ne (l := shifted _ _), List.append_nil]
    intro e he
    rw [shifted, List.mem_map] at he
    obtain ⟨x, -, rfl⟩ := he
    simp only
    omega
  have hback : ∀ n, eventsEndingAt (extractAt (f ++ B)) (16 + n) = eventsEndingAt (extractAt B) n := by
    intro n
    rw [hext, eventsEndingAt_append, eventsEndingAt_of_forall_ne (l := [_]), List.nil_append, List.nil_append,
      Nat.add_comm, eventsEndingAt_shifted]
    intro e he
    rw [List.mem_singleton.mp he]
    simp only
    omega
  have hframe : (List.range 16).map (eventsEndingAt [(0, ev)]) = List.replicate 15 [] ++ [[ev]] := rfl
  have hsixteen : f.length = 16 := by simpa using hlen.symm
  rw [eventsByByte, List.length_append, hsixteen, List.range_add, List.map_append, List.map_map, ← hframe,
    List.map_congr_left fun n hn => hfront n (List.mem_range.mp hn)]
  simp only [Function.comp_def, hback]
  rfl

/-- Settles O45: each frame gives its sample at its last byte and goes, so the next one stands in front of the rest. -/
theorem backToBackFramesRoundTrip : Obligations.BackToBackFramesRoundTrip := by
  intro c ps hc hps
  rw [edgeEvents_chunk_resetWith hc]
  congr 1
  induction ps with
  | nil => rfl
  | cons p ps ih =>
    rw [List.forall_mem_cons] at hps
    rw [List.flatMap_cons, List.flatMap_cons, eventsByByte_append (reduces_frameOf hps.1), ih hps.2]

end Sys2Proof.Machine
end
